-- ==== Sys2Proof/Word.lean ====
section
/-! DEFINITION. The word types of the machine (spec rules R4, R7, R20, R22, R23): every value is an unsigned number
of a fixed width, and every widening is zero extension. -/

namespace Sys2Proof

/-- A byte: a general register, a memory cell, a timer, an immediate NN (R20, R27, R50, R71). -/
abbrev Byte := BitVec 8

/-- A 16-bit word: an instruction, the index register, the program counter, a stack entry (R22, R23, R24, R70). -/
abbrev Word := BitVec 16

/-- The 12-bit address operand NNN (R71). -/
abbrev Addr12 := BitVec 12

/-- A register number, the value of an X or Y field: 0 to 15 (R20, R71). -/
abbrev Reg := Fin 16

/-- A row of the framebuffer: 64 pixels, column 0 first (R26). -/
abbrev PixelRow := Vector Bool 64

end Sys2Proof
end

