-- ==== Sys2Proof/Config.lean ====
section
/-! DEFINITION. The open parameters of spec rule R5, as a type, and the free value of the model (the random byte).
The values this model gives the parameters are `Machine.params` (Sys2Proof/Machine/Params.lean). -/

namespace Sys2Proof

/-- The parameters the spec leaves open (R5): fixed for one machine, no part of its state. -/
structure Params where
  /-- `FONT`: contents of 0x050 to 0x09F after reset (R36, R54). -/
  font : Vector Byte 80
  /-- `RESET_PC`: value of PC after reset (R39). -/
  resetPc : Word
  /-- `STACK_CAP`: greatest depth of the call stack; `none` is the spec's infinity (R24). -/
  stackCap : Option Nat
  /-- `STRICT_DECODE`: whether the nibbles the opcode table writes as 0 are decoded (R79). -/
  strictDecode : Bool
  deriving DecidableEq, Repr

/-- FREE VALUE (log 6): the random byte of the n-th execution of CXNN. R30 and D12 put no law on it; it has no body
here, so no proof can use a value of it. -/
opaque Config.draw : Nat → Byte

end Sys2Proof
end

