-- ==== Sys2Proof/Machine/Params.lean ====
section
/-! DEFINITION. The values `step` and `State.reset` give the open parameters of R5. The machine itself takes them as
arguments: `State.resetWith`, `decodeWith`, `callWith`, `execWith`, `cycleWith`, `stepWith` and `State.historyWith` are it
for every value of them, and `step`, `exec` and `State.reset` are those at `params`. -/

namespace Sys2Proof.Machine

/-- The default font of R54: sixteen glyphs of five bytes, hex digits 0 to F. PRESUMED (log 3): the spec marks the
bytes as general knowledge. -/
def fontTable : Vector Byte 80 := #v[
  0xF0, 0x90, 0x90, 0x90, 0xF0,  0x20, 0x60, 0x20, 0x20, 0x70,
  0xF0, 0x10, 0xF0, 0x80, 0xF0,  0xF0, 0x10, 0xF0, 0x10, 0xF0,
  0x90, 0x90, 0xF0, 0x10, 0x10,  0xF0, 0x80, 0xF0, 0x10, 0xF0,
  0xF0, 0x80, 0xF0, 0x90, 0xF0,  0xF0, 0x10, 0x20, 0x40, 0x40,
  0xF0, 0x90, 0xF0, 0x90, 0xF0,  0xF0, 0x90, 0xF0, 0x10, 0xF0,
  0xF0, 0x90, 0xF0, 0x90, 0x90,  0xE0, 0x90, 0xE0, 0x90, 0xE0,
  0xF0, 0x80, 0x80, 0x80, 0xF0,  0xE0, 0x90, 0x90, 0x90, 0xE0,
  0xF0, 0x80, 0xF0, 0x80, 0xF0,  0xF0, 0x80, 0xF0, 0x80, 0x80]

/-- The parameters of this model: the spec's defaults (R5), and for RESET_PC, which has none, 0x200.
DESIGN CHOICE (logs 1, 4, 5). -/
def params : Params where
  font := fontTable
  resetPc := 0x200
  stackCap := none
  strictDecode := true

end Sys2Proof.Machine
end

