-- ==== Sys2Proof/Decode.lean ====
section
/-! DEFINITION. The decoder (R70 to R86, R92), total on every word and every list of bytes; the opcode map of R74 as
data; and the encoder (R86). An undecodable word is rejected by name: `Decoded.unknown` carries it (R80, R85). -/

namespace Sys2Proof

/-- The result of decoding one word (R85): one of the 34 instructions, or the unknown opcode with its word. -/
inductive Decoded where
  | instr (i : Instr)
  | unknown (op : Word)
  deriving DecidableEq, Repr

/-! ### Fields (R6, R71) -/

/-- `N1 = op[15:12]`, the family selector. -/
def nibble1 (op : Word) : BitVec 4 := op.extractLsb' 12 4

/-- `N2 = op[11:8]`. -/
def nibble2 (op : Word) : BitVec 4 := op.extractLsb' 8 4

/-- `N3 = op[7:4]`. -/
def nibble3 (op : Word) : BitVec 4 := op.extractLsb' 4 4

/-- `N4 = op[3:0]`. -/
def nibble4 (op : Word) : BitVec 4 := op.extractLsb' 0 4

/-- `NN = op[7:0]`, the immediate byte and the function byte of families 0, E and F. -/
def fieldNN (op : Word) : Byte := op.extractLsb' 0 8

/-- `NNN = op[11:0]`. -/
def fieldNNN (op : Word) : Addr12 := op.extractLsb' 0 12

/-- `X = N2` as a register number. -/
def fieldX (op : Word) : Reg := (nibble2 op).toFin

/-- `Y = N3` as a register number. -/
def fieldY (op : Word) : Reg := (nibble3 op).toFin

/-- `N = N4` as a count. -/
def fieldN (op : Word) : Nat := (nibble4 op).toNat

/-! ### Dispatch on N1, then on the low byte or the low nibble (R75 to R79, R92) -/

/-- Family 0 (R75, R79): the low byte selects; with `strict` the word must also have `N2 = 0`. -/
def decodeFamily0 (strict : Bool) (op : Word) : Decoded :=
  if strict && nibble2 op != 0 then .unknown op
  else match fieldNN op with
    | 0xE0#8 => .instr .cls
    | 0xEE#8 => .instr .ret
    | _ => .unknown op

/-- Families 5 and 9 (R79): one instruction each; with `strict` the word must have `N4 = 0`. -/
def decodeZeroN4 (strict : Bool) (op : Word) (i : Instr) : Decoded :=
  if strict && nibble4 op != 0 then .unknown op else .instr i

/-- Family 8 (R76): the low nibble selects. -/
def decodeFamily8 (op : Word) : Decoded :=
  let x := fieldX op
  let y := fieldY op
  match nibble4 op with
  | 0x0#4 => .instr (.ldReg x y)
  | 0x1#4 => .instr (.orReg x y)
  | 0x2#4 => .instr (.andReg x y)
  | 0x3#4 => .instr (.xorReg x y)
  | 0x4#4 => .instr (.addReg x y)
  | 0x5#4 => .instr (.sub x y)
  | 0x6#4 => .instr (.shr x y)
  | 0x7#4 => .instr (.subn x y)
  | 0xE#4 => .instr (.shl x y)
  | _ => .unknown op

/-- Family E (R77): the low byte selects. -/
def decodeFamilyE (op : Word) : Decoded :=
  match fieldNN op with
  | 0x9E#8 => .instr (.skp (fieldX op))
  | 0xA1#8 => .instr (.sknp (fieldX op))
  | _ => .unknown op

/-- Family F (R78): the low byte selects. -/
def decodeFamilyF (op : Word) : Decoded :=
  let x := fieldX op
  match fieldNN op with
  | 0x07#8 => .instr (.ldVxDt x)
  | 0x0A#8 => .instr (.ldVxK x)
  | 0x15#8 => .instr (.ldDtVx x)
  | 0x18#8 => .instr (.ldStVx x)
  | 0x1E#8 => .instr (.addI x)
  | 0x29#8 => .instr (.ldF x)
  | 0x33#8 => .instr (.ldB x)
  | 0x55#8 => .instr (.stRegs x)
  | 0x65#8 => .instr (.ldRegs x)
  | _ => .unknown op

/-- `Decode(op)` (R85, R92) for either value of STRICT_DECODE: dispatch on N1 into the 16 families. -/
def decodeWith (strict : Bool) (op : Word) : Decoded :=
  match nibble1 op with
  | 0x0#4 => decodeFamily0 strict op
  | 0x1#4 => .instr (.jp (fieldNNN op))
  | 0x2#4 => .instr (.call (fieldNNN op))
  | 0x3#4 => .instr (.seImm (fieldX op) (fieldNN op))
  | 0x4#4 => .instr (.sneImm (fieldX op) (fieldNN op))
  | 0x5#4 => decodeZeroN4 strict op (.seReg (fieldX op) (fieldY op))
  | 0x6#4 => .instr (.ldImm (fieldX op) (fieldNN op))
  | 0x7#4 => .instr (.addImm (fieldX op) (fieldNN op))
  | 0x8#4 => decodeFamily8 op
  | 0x9#4 => decodeZeroN4 strict op (.sneReg (fieldX op) (fieldY op))
  | 0xA#4 => .instr (.ldI (fieldNNN op))
  | 0xB#4 => .instr (.jpV0 (fieldNNN op))
  | 0xC#4 => .instr (.rnd (fieldX op) (fieldNN op))
  | 0xD#4 => .instr (.drw (fieldX op) (fieldY op) (fieldN op))
  | 0xE#4 => decodeFamilyE op
  | 0xF#4 => decodeFamilyF op
  | _ => .unknown op  -- no value of a 4-bit field is left

/-- The decoder of this machine: STRICT_DECODE as `params` gives it (R79, log 4). -/
def decode (op : Word) : Decoded := decodeWith Machine.params.strictDecode op

/-! ### Bytes (R55, R70) -/

/-- Two bytes as a word, the byte at the lower address most significant: `(high << 8) | low` (R55, R91). -/
def wordOfBytes (hi lo : Byte) : Word := (hi.setWidth 16 <<< 8) ||| lo.setWidth 16

/-- The high byte of a word, stored at the lower address (R55). -/
def highByte (op : Word) : Byte := op.extractLsb' 8 8

/-- The low byte of a word, stored at the higher address (R55). -/
def lowByte (op : Word) : Byte := op.extractLsb' 0 8

/-- Decode the instruction at the head of a list of bytes, with the bytes that follow it (R70: every instruction
takes two). `none` when fewer than two bytes are left. -/
def decodeBytes : List Byte → Option (Decoded × List Byte)
  | hi :: lo :: rest => some (decode (wordOfBytes hi lo), rest)
  | [_] => none
  | [] => none

/-- The instruction the decoder reads from a row of the opcode table: `w` numbered with bit 0 the least significant
bit of the 16-bit word, bits from `nbits` on taken as 0. -/
def decodeTableWord (nbits w : Nat) : Option Instr :=
  let op : Word := BitVec.ofNat 16 (w % 2 ^ nbits)
  match decodeBytes [highByte op, lowByte op] with
  | some (.instr i, _) => some i
  | some (.unknown _, _) => none
  | none => none

/-! ### The opcode map as data (R74, R79) -/

/-- One row of the opcode map. -/
structure OpcodeRow where
  /-- The row's name in spec/opcode_table.json (R84). -/
  mnemonic : String
  /-- Its mask with STRICT_DECODE = true (R74). -/
  strictMask : Word
  /-- Its mask with STRICT_DECODE = false (R79). -/
  looseMask : Word
  /-- The fixed bits under the mask (R74). -/
  pattern : Word
  /-- The instruction a word of this row stands for (R71). -/
  build : Word → Instr

/-- The mask of a row under a value of STRICT_DECODE (R79). -/
def OpcodeRow.mask (row : OpcodeRow) (strict : Bool) : Word :=
  if strict then row.strictMask else row.looseMask

/-- `(op & mask) == match` (R74). -/
def OpcodeRow.selects (row : OpcodeRow) (strict : Bool) (op : Word) : Bool :=
  op &&& row.mask strict == row.pattern

/-- Rows of formats Z, A and the fixed-zero R rows (R74, R79). -/
def opcodeRowsFlow : List OpcodeRow := [
  ⟨"CLS", 0xFFFF, 0xF0FF, 0x00E0, fun _ => .cls⟩,
  ⟨"RET", 0xFFFF, 0xF0FF, 0x00EE, fun _ => .ret⟩,
  ⟨"JP", 0xF000, 0xF000, 0x1000, fun w => .jp (fieldNNN w)⟩,
  ⟨"CALL", 0xF000, 0xF000, 0x2000, fun w => .call (fieldNNN w)⟩,
  ⟨"SE_IMM", 0xF000, 0xF000, 0x3000, fun w => .seImm (fieldX w) (fieldNN w)⟩,
  ⟨"SNE_IMM", 0xF000, 0xF000, 0x4000, fun w => .sneImm (fieldX w) (fieldNN w)⟩,
  ⟨"SE_REG", 0xF00F, 0xF000, 0x5000, fun w => .seReg (fieldX w) (fieldY w)⟩,
  ⟨"LD_IMM", 0xF000, 0xF000, 0x6000, fun w => .ldImm (fieldX w) (fieldNN w)⟩,
  ⟨"ADD_IMM", 0xF000, 0xF000, 0x7000, fun w => .addImm (fieldX w) (fieldNN w)⟩]

/-- Rows of families 8 and 9 (R74, R76, R79). -/
def opcodeRowsAlu : List OpcodeRow := [
  ⟨"LD_REG", 0xF00F, 0xF00F, 0x8000, fun w => .ldReg (fieldX w) (fieldY w)⟩,
  ⟨"OR", 0xF00F, 0xF00F, 0x8001, fun w => .orReg (fieldX w) (fieldY w)⟩,
  ⟨"AND", 0xF00F, 0xF00F, 0x8002, fun w => .andReg (fieldX w) (fieldY w)⟩,
  ⟨"XOR", 0xF00F, 0xF00F, 0x8003, fun w => .xorReg (fieldX w) (fieldY w)⟩,
  ⟨"ADD_REG", 0xF00F, 0xF00F, 0x8004, fun w => .addReg (fieldX w) (fieldY w)⟩,
  ⟨"SUB", 0xF00F, 0xF00F, 0x8005, fun w => .sub (fieldX w) (fieldY w)⟩,
  ⟨"SHR", 0xF00F, 0xF00F, 0x8006, fun w => .shr (fieldX w) (fieldY w)⟩,
  ⟨"SUBN", 0xF00F, 0xF00F, 0x8007, fun w => .subn (fieldX w) (fieldY w)⟩,
  ⟨"SHL", 0xF00F, 0xF00F, 0x800E, fun w => .shl (fieldX w) (fieldY w)⟩,
  ⟨"SNE_REG", 0xF00F, 0xF000, 0x9000, fun w => .sneReg (fieldX w) (fieldY w)⟩]

/-- Rows of families A to E (R74, R77). -/
def opcodeRowsIndex : List OpcodeRow := [
  ⟨"LD_I", 0xF000, 0xF000, 0xA000, fun w => .ldI (fieldNNN w)⟩,
  ⟨"JP_V0", 0xF000, 0xF000, 0xB000, fun w => .jpV0 (fieldNNN w)⟩,
  ⟨"RND", 0xF000, 0xF000, 0xC000, fun w => .rnd (fieldX w) (fieldNN w)⟩,
  ⟨"DRW", 0xF000, 0xF000, 0xD000, fun w => .drw (fieldX w) (fieldY w) (fieldN w)⟩,
  ⟨"SKP", 0xF0FF, 0xF0FF, 0xE09E, fun w => .skp (fieldX w)⟩,
  ⟨"SKNP", 0xF0FF, 0xF0FF, 0xE0A1, fun w => .sknp (fieldX w)⟩]

/-- Rows of family F (R74, R78). -/
def opcodeRowsF : List OpcodeRow := [
  ⟨"LD_VX_DT", 0xF0FF, 0xF0FF, 0xF007, fun w => .ldVxDt (fieldX w)⟩,
  ⟨"LD_VX_K", 0xF0FF, 0xF0FF, 0xF00A, fun w => .ldVxK (fieldX w)⟩,
  ⟨"LD_DT_VX", 0xF0FF, 0xF0FF, 0xF015, fun w => .ldDtVx (fieldX w)⟩,
  ⟨"LD_ST_VX", 0xF0FF, 0xF0FF, 0xF018, fun w => .ldStVx (fieldX w)⟩,
  ⟨"ADD_I", 0xF0FF, 0xF0FF, 0xF01E, fun w => .addI (fieldX w)⟩,
  ⟨"LD_F", 0xF0FF, 0xF0FF, 0xF029, fun w => .ldF (fieldX w)⟩,
  ⟨"LD_B", 0xF0FF, 0xF0FF, 0xF033, fun w => .ldB (fieldX w)⟩,
  ⟨"ST_REGS", 0xF0FF, 0xF0FF, 0xF055, fun w => .stRegs (fieldX w)⟩,
  ⟨"LD_REGS", 0xF0FF, 0xF0FF, 0xF065, fun w => .ldRegs (fieldX w)⟩]

/-- The complete map, 34 rows in the table's order (R74). -/
def opcodeTable : List OpcodeRow :=
  opcodeRowsFlow ++ opcodeRowsAlu ++ opcodeRowsIndex ++ opcodeRowsF

/-! ### The encoder (R86) -/

/-- The X field in its place: `X << 8`. -/
def placeX (x : Reg) : Word := BitVec.ofNat 16 x.val <<< 8

/-- The Y field in its place: `Y << 4`. -/
def placeY (y : Reg) : Word := BitVec.ofNat 16 y.val <<< 4

/-- Format A: `match | NNN`. -/
def encodeA (pattern : Word) (nnn : Addr12) : Word := pattern ||| nnn.setWidth 16

/-- Format I: `match | (X << 8) | NN`. -/
def encodeI (pattern : Word) (x : Reg) (nn : Byte) : Word := pattern ||| placeX x ||| nn.setWidth 16

/-- Formats R and D: `match | (X << 8) | (Y << 4) | N`, with N = 0 for format R. -/
def encodeD (pattern : Word) (x y : Reg) (n : Nat) : Word :=
  pattern ||| placeX x ||| placeY y ||| BitVec.ofNat 16 n

/-- Format K: `match | (X << 8)`. -/
def encodeK (pattern : Word) (x : Reg) : Word := pattern ||| placeX x

/-- The word of a well-formed instruction (R86). -/
def encode : Instr → Word
  | .cls => 0x00E0
  | .ret => 0x00EE
  | .jp nnn => encodeA 0x1000 nnn
  | .call nnn => encodeA 0x2000 nnn
  | .seImm x nn => encodeI 0x3000 x nn
  | .sneImm x nn => encodeI 0x4000 x nn
  | .seReg x y => encodeD 0x5000 x y 0
  | .ldImm x nn => encodeI 0x6000 x nn
  | .addImm x nn => encodeI 0x7000 x nn
  | .ldReg x y => encodeD 0x8000 x y 0
  | .orReg x y => encodeD 0x8001 x y 0
  | .andReg x y => encodeD 0x8002 x y 0
  | .xorReg x y => encodeD 0x8003 x y 0
  | .addReg x y => encodeD 0x8004 x y 0
  | .sub x y => encodeD 0x8005 x y 0
  | .shr x y => encodeD 0x8006 x y 0
  | .subn x y => encodeD 0x8007 x y 0
  | .shl x y => encodeD 0x800E x y 0
  | .sneReg x y => encodeD 0x9000 x y 0
  | .ldI nnn => encodeA 0xA000 nnn
  | .jpV0 nnn => encodeA 0xB000 nnn
  | .rnd x nn => encodeI 0xC000 x nn
  | .drw x y n => encodeD 0xD000 x y n
  | .skp x => encodeK 0xE09E x
  | .sknp x => encodeK 0xE0A1 x
  | .ldVxDt x => encodeK 0xF007 x
  | .ldVxK x => encodeK 0xF00A x
  | .ldDtVx x => encodeK 0xF015 x
  | .ldStVx x => encodeK 0xF018 x
  | .addI x => encodeK 0xF01E x
  | .ldF x => encodeK 0xF029 x
  | .ldB x => encodeK 0xF033 x
  | .stRegs x => encodeK 0xF055 x
  | .ldRegs x => encodeK 0xF065 x

end Sys2Proof
end

