-- ==== Sys2Proof/Machine/Memory.lean ====
section
/-! DEFINITION. The 4096-byte memory (R50 to R54) as a list of cells in canonical form: addresses rising, below 4096,
and no cell equal to what its address reads as when it is not listed. Every list in that form is one contents of the
4096 bytes, and every contents has its list, so FONT (R5) is no parameter of reading or writing: it enters once, by
`Memory.load`, at reset. -/

namespace Sys2Proof.Machine

/-- What an address reads as when it is not listed: its reset contents under the default FONT, the table of R54 at 0x050
to 0x09F and zero elsewhere (R35, R36, R53, R54). It is the origin memories are written down from (log 7), not the FONT of
a machine. -/
def Memory.unlisted (a : Nat) : Byte :=
  if 0x050 ≤ a ∧ a < 0x0A0 then fontTable[a - 0x050]?.getD 0 else 0

/-- The value listed for an address. -/
def Memory.find (a : Nat) : List Host.Cell → Option Byte
  | [] => none
  | (k, c) :: m => if k = a then some c else Memory.find a m

/-- `MemRead(addr, 1)` (R51): the stored byte below 4096, else 0. -/
def Memory.read (m : List Host.Cell) (a : Nat) : Byte :=
  if a < 4096 then (Memory.find a m).getD (Memory.unlisted a) else 0

/-- List a value for an address, keeping the addresses rising. -/
def Memory.list (a : Nat) (b : Byte) : List Host.Cell → List Host.Cell
  | [] => [(a, b)]
  | (k, c) :: m =>
    if a < k then (a, b) :: (k, c) :: m
    else if a = k then (a, b) :: m
    else (k, c) :: Memory.list a b m

/-- Take the cell of an address off the list. -/
def Memory.unlist (a : Nat) : List Host.Cell → List Host.Cell
  | [] => []
  | (k, c) :: m => if k = a then Memory.unlist a m else (k, c) :: Memory.unlist a m

/-- `MemWrite(addr, 1, v)` (R52): store below 4096, else nothing. Writing what an address reads as unlisted takes its
cell off the list, so that equal memories are equal lists. -/
def Memory.write (m : List Host.Cell) (a : Nat) (b : Byte) : List Host.Cell :=
  if a < 4096 then
    if b = Memory.unlisted a then Memory.unlist a m else Memory.list a b m
  else m

/-- Bytes written at ascending addresses from `addr`, the address not wrapped: the loop of R192, and the seeding of the
font at reset (R190). -/
def Memory.load : List Byte → Nat → List Host.Cell → List Host.Cell
  | [], _, m => m
  | b :: buf, addr, m => Memory.load buf (addr + 1) (Memory.write m addr b)

/-- The canonical form of memory. -/
abbrev Memory.wf (m : List Host.Cell) : Prop :=
  m.Pairwise (fun p q => p.1 < q.1) ∧ ∀ cell ∈ m, cell.1 < 4096 ∧ cell.2 ≠ Memory.unlisted cell.1

end Sys2Proof.Machine
end

