-- ==== Sys2Proof/Machine/State.lean ====
section
/-! DEFINITION. The state of the machine as plain data (spec/10_state.md: the tuple at its head, complete by R31), the
reasons a step can stop, and the state after reset (R35 to R45, R190). -/

namespace Sys2Proof.Machine

/-- The wait state (R29): fetching, or blocked by FX0A with the number of its destination register. -/
inductive Wait where
  | run
  | waitKey (x : Reg)
  deriving DecidableEq, Repr

/-- The complete state (10_state.md), and the model's own counter of random draws. -/
structure State where
  /-- V0 to VF; VF is the flag register (R20, R21). -/
  v : Vector Byte 16
  /-- The index register I (R22). -/
  i : Word
  /-- The program counter; inside a handler, the address of the next instruction (R23, R91). -/
  pc : Word
  /-- The call stack, most recently pushed first (R24). -/
  stack : List Word
  /-- Memory (R25, R50), as the cells that differ from what `Memory.unlisted` says, addresses rising (log 7). -/
  mem : List Host.Cell
  /-- The framebuffer, row 0 first, in each row column 0 first (R26). -/
  fb : Vector PixelRow 32
  /-- The delay timer DT (R27). -/
  dt : Byte
  /-- The sound timer ST (R27). -/
  st : Byte
  /-- The input latch: `true` is down (R28). -/
  keys : Vector Bool 16
  /-- The wait state (R29). -/
  wait : Wait
  /-- THE MODEL'S OWN (log 6): how many random bytes have been drawn; the next is `Config.draw draws` (R30). -/
  draws : Nat
  deriving DecidableEq, Repr

/-- Why the machine stops with a fault. The hardware has no fault (R160). -/
inductive Fault where
  /-- Raised by `callWith`, hence by 2NNN with an even target at depth = STACK_CAP, when the model is given a finite
  STACK_CAP (R102, D6, log 5). Safe: the spec gives the case no meaning. Never raised with the default STACK_CAP. -/
  | stackFull
  deriving DecidableEq, Repr

/-- Why a step has no meaning. No instruction and no word is without one (R160). -/
inductive Refusal where
  /-- Raised by an arm of `exec` for an instruction that has no meaning yet. Safe. No arm raises it. -/
  | notModelled (mnemonic : String)
  deriving DecidableEq, Repr

/-- What an instruction, or a step, answers. -/
abbrev Result := Host.Outcome State Fault Refusal

/-- The state after reset with a given PC and memory: all else zero, empty, up and `run`, as R37, R38, R40 to R44 decide
(D3, log 2). -/
def State.initial (resetPc : Word) (memory : List Host.Cell) : State where
  v := Vector.replicate 16 0
  i := 0
  pc := resetPc
  stack := []
  mem := memory
  fb := Vector.replicate 32 (Vector.replicate 64 false)
  dt := 0
  st := 0
  keys := Vector.replicate 16 false
  wait := .run
  draws := 0

/-- The state after reset for given parameters (R5, R35 to R45, R190): zero memory with FONT written at 0x050, PC the value
of RESET_PC. -/
def State.resetWith (p : Params) : State := State.initial p.resetPc (Memory.load p.font.toList 0x050 [])

/-- The machine right after reset (R190): `State.resetWith` at the parameters `params` (RESET_PC: DESIGN CHOICE, log 1),
whose FONT is the default, so that nothing is listed. That it is equal to that is `State.reset_eq` (Sys2Proof/Laws/Step.lean). -/
def State.reset : State := State.initial params.resetPc []

end Sys2Proof.Machine
end

