-- ==== Sys2Proof/Machine/Ops.lean ====
section
/-! DEFINITION. The primitives of R8 over the state: registers, memory, framebuffer, key latch, call stack, fetch. Each
has the absorbing range policy of R68, so each is total.

TAKING AN EXCEPTION, AND RETURNING FROM ONE: this machine has neither (R160, R162, R169, R170). No operation here saves
a state, changes a mode or reads a vector, because the spec names none; 00EE is a subroutine return
(Sys2Proof/Machine/Flow.lean). -/

namespace Sys2Proof.Machine

/-! ### General registers (R20, R67, R193) -/

/-- `V[i]`, and the host's `GetV(i)`: 0 for an index of 16 or more (R67), which no instruction can present (R20). -/
def State.getV (s : State) (i : Nat) : Byte := s.v[i]?.getD 0

/-- `V[i] <- b`: nothing for an index of 16 or more (R67). -/
def State.setV (s : State) (i : Nat) (b : Byte) : State := { s with v := s.v.setIfInBounds i b }

/-- The number of VF, the flag register (R21). -/
def VF : Reg := 15

/-! ### Memory (R51, R52) -/

/-- `MemRead(addr, 1)` (R51). -/
def State.readMem (s : State) (a : Nat) : Byte := Memory.read s.mem a

/-- `MemWrite(addr, 1, b)` (R52). -/
def State.writeMem (s : State) (a : Nat) (b : Byte) : State := { s with mem := Memory.write s.mem a b }

/-! ### Framebuffer (R65) -/

/-- `Pixel(row, col)`, the host's `GetPixel`: false out of range. -/
def State.getPixel (s : State) (row col : Nat) : Bool := (s.fb[row]?.bind (·[col]?)).getD false

/-- `Pixel(row, col) <- b`, the host's `SetPixel`: nothing out of range. -/
def State.setPixel (s : State) (row col : Nat) (b : Bool) : State :=
  { s with fb := s.fb.setIfInBounds row ((s.fb[row]?.getD (Vector.replicate 64 false)).setIfInBounds col b) }

/-- `Clear()`: every pixel false. -/
def State.clearScreen (s : State) : State := { s with fb := Vector.replicate 32 (Vector.replicate 64 false) }

/-- `IsClear()`: whether every pixel is false. -/
def State.isClear (s : State) : Bool := s.fb.toList.all (fun row => row.toList.all (fun pixel => !pixel))

/-! ### Key latch (R66) -/

/-- `Key(k)`: whether key `k` is down; false for 16 or more (R66, D10, log 15). -/
def State.key (s : State) (k : Nat) : Bool := s.keys[k]?.getD false

/-- Put a key down or up; nothing for 16 or more (R165, R166). -/
def State.setKey (s : State) (k : Nat) (down : Bool) : State := { s with keys := s.keys.setIfInBounds k down }

/-! ### Call stack (R24) -/

/-- `push(v)` under a capacity: `none` when the stack is full, which with capacity `none` (infinity) it never is. -/
def State.push (cap : Option Nat) (w : Word) (s : State) : Option State :=
  if cap.all (fun c => decide (s.stack.length < c)) then some { s with stack := w :: s.stack } else none

/-- `pop()`: the most recently pushed entry and the state without it; `none` when the stack is empty. -/
def State.pop (s : State) : Option (Word × State) :=
  match s.stack with
  | [] => none
  | w :: rest => some (w, { s with stack := rest })

/-! ### Program counter and fetch (R23, R91) -/

/-- `PC <- PC + 2`, modulo 65536: the advance of a fetch, and of a skip (R91, R97; D1, log 11). -/
def State.advance (s : State) : State := { s with pc := s.pc + 2 }

/-- A skip (R97): a further 2 past the fetch when the condition holds. -/
def State.skipIf (s : State) (condition : Bool) : State := if condition then s.advance else s

/-- The word at PC (R91): two byte reads, each with its own range check, the address PC + 1 not wrapped (R56, R58;
D2, log 12). -/
def State.fetchWord (s : State) : Word :=
  wordOfBytes (s.readMem s.pc.toNat) (s.readMem (s.pc.toNat + 1))

/-- `draw8()` (R8, R30): the next random byte, a free value, and the state that has consumed it (log 6). -/
def State.draw8 (s : State) : Byte × State := (Config.draw s.draws, { s with draws := s.draws + 1 })

/-- Store a word where the next fetch reads it, moving PC to 0x200 when PC and PC + 1 are not both in memory, and
leaving a wait, so that the next step fetches it (log 10). -/
def State.placeWord (s : State) (op : Word) : State :=
  let s := if s.pc.toNat + 1 < 4096 then s else { s with pc := 0x200 }
  let s := { s with wait := .run }
  (s.writeMem s.pc.toNat (highByte op)).writeMem (s.pc.toNat + 1) (lowByte op)

end Sys2Proof.Machine
end

