-- ==== Sys2Proof/Machine/Flags.lean ====
section
/-! DEFINITION. Every flag computation of the machine (R21, R124). The flag is VF, an ordinary register that receives
0 or 1; there is no other flag. All comparisons are unsigned (R7, R123). -/

namespace Sys2Proof.Machine

/-- A flag as the byte VF receives (R21). -/
def flagByte (flag : Bool) : Byte := if flag then 1 else 0

/-- `VF := flag`. -/
def State.setFlag (s : State) (flag : Bool) : State := s.setV VF (flagByte flag)

/-- 8XY4: carry out of bit 7, the 9-bit sum is over 255 (R117). -/
def carryOut (a b : Byte) : Bool := 255 < a.toNat + b.toNat

/-- 8XY5: no borrow in `a - b` (R118). -/
def noBorrow (a b : Byte) : Bool := b.toNat ≤ a.toNat

/-- 8XY7: `V[X] <= V[Y]`, as the table row has it (R120, C1, log 14). -/
def subnFlag (a b : Byte) : Bool := a.toNat ≤ b.toNat

/-- 8XY6 and 8XYE: bit 0 of the source before the shift (R119, R121). -/
def oldBit0 (a : Byte) : Bool := a.getLsbD 0

end Sys2Proof.Machine
end

