-- ==== Sys2Proof/Machine/Alu.lean ====
section
/-! DEFINITION. Register loads and the 8-bit ALU (spec/42_alu.md): 6XNN, 7XNN, 8XY0 to 8XY7, 8XYE, CXNN. Sources are
read before any write, and writes happen in the order the rule lists them (R110; D8, D9, log 13). -/

namespace Sys2Proof.Machine

/-- 6XNN (R111). -/
def execLdImm (x : Reg) (nn : Byte) (s : State) : Result := .next (s.setV x nn)

/-- 7XNN (R112): modulo 256, no flag. -/
def execAddImm (x : Reg) (nn : Byte) (s : State) : Result := .next (s.setV x (s.getV x + nn))

/-- 8XY0 (R113). -/
def execLdReg (x y : Reg) (s : State) : Result := .next (s.setV x (s.getV y))

/-- 8XY1 (R114). -/
def execOrReg (x y : Reg) (s : State) : Result := .next (s.setV x (s.getV x ||| s.getV y))

/-- 8XY2 (R115). -/
def execAndReg (x y : Reg) (s : State) : Result := .next (s.setV x (s.getV x &&& s.getV y))

/-- 8XY3 (R116). -/
def execXorReg (x y : Reg) (s : State) : Result := .next (s.setV x (s.getV x ^^^ s.getV y))

/-- 8XY4 (R117): the sum first, then the carry, so with X = F the carry stands. -/
def execAddReg (x y : Reg) (s : State) : Result :=
  let a := s.getV x
  let b := s.getV y
  .next ((s.setV x (a + b)).setFlag (carryOut a b))

/-- 8XY5 (R118): the flag first, then the difference unless the destination is VF. -/
def execSub (x y : Reg) (s : State) : Result :=
  let a := s.getV x
  let b := s.getV y
  let t := s.setFlag (noBorrow a b)
  .next (if x = VF then t else t.setV x (a - b))

/-- 8XY6 (R119): V[X] shifted right by one into V[Y], the flag first. -/
def execShr (x y : Reg) (s : State) : Result :=
  let a := s.getV x
  .next ((s.setFlag (oldBit0 a)).setV y (a >>> 1))

/-- 8XY7 (R120): V[X] - V[Y] into V[Y], the flag V[X] <= V[Y] first (log 14). -/
def execSubn (x y : Reg) (s : State) : Result :=
  let a := s.getV x
  let b := s.getV y
  .next ((s.setFlag (subnFlag a b)).setV y (a - b))

/-- 8XYE (R121): V[X] shifted left by one into V[Y], the flag, bit 0 of the source, first. -/
def execShl (x y : Reg) (s : State) : Result :=
  let a := s.getV x
  .next ((s.setFlag (oldBit0 a)).setV y (a <<< 1))

/-- CXNN (R122): a random byte, a free value (log 6), under the mask NN. -/
def execRnd (x : Reg) (nn : Byte) (s : State) : Result :=
  let (r, t) := s.draw8
  .next (t.setV x (r &&& nn))

end Sys2Proof.Machine
end

