-- ==== Sys2Proof/Machine/Operands.lean ====
section
/-! DEFINITION. The operand forms: how an instruction turns registers, immediates and the index register into values,
addresses, coordinates and digits (R7, R58, R73, R127, R128, R136). Every widening is zero extension (R8). -/

namespace Sys2Proof.Machine

/-- `zext_16` of a byte (R8). -/
def zextByte (b : Byte) : Word := b.setWidth 16

/-- `zext_16` of an address operand NNN (R73). -/
def zextAddr (nnn : Addr12) : Word := nnn.setWidth 16

/-- The effective address `I + k`, a natural number, not wrapped (R58; D2, log 12). -/
def State.indexAddr (s : State) (k : Nat) : Nat := s.i.toNat + k

/-- The index register after it has moved past `n` bytes, modulo 65536 (R129). -/
def State.bumpIndex (s : State) (n : Nat) : State := { s with i := s.i + BitVec.ofNat 16 n }

/-- The address of a font glyph, `0x050 + 5 * value`, the whole byte used (R127). -/
def glyphAddr (b : Byte) : Word := 0x050 + 5 * zextByte b

/-- The target of BNNN, `V0 + NNN`, not reduced to 12 bits (R107). -/
def State.jumpV0Target (s : State) (nnn : Addr12) : Word := zextByte (s.getV 0) + zextAddr nnn

/-- The hundreds digit of a byte (R128). -/
def bcdHundreds (a : Byte) : Byte := a / 100

/-- The tens digit of a byte (R128). -/
def bcdTens (a : Byte) : Byte := (a / 10) % 10

/-- The ones digit of a byte (R128). -/
def bcdOnes (a : Byte) : Byte := a % 10

/-- The origin column of a sprite, wrapped modulo 64 (R136). -/
def State.spriteCol (s : State) (x : Reg) : Nat := (s.getV x).toNat % 64

/-- The origin row of a sprite, wrapped modulo 32 (R136). -/
def State.spriteRow (s : State) (y : Reg) : Nat := (s.getV y).toNat % 32

/-- The sprite bit at column offset `c` (0 to 7): bit `7 - c` of the byte (R136; D13, log 17). -/
def spriteBit (byte : Byte) (c : Nat) : Bool := byte.getLsbD (7 - c)

end Sys2Proof.Machine
end

