-- ==== Sys2Proof/Machine/Display.lean ====
section
/-! DEFINITION. The display (spec/44_display.md): 00E0 and DXYN, the loops of R136 as written, with their early exits
at the right and bottom edges. -/

namespace Sys2Proof.Machine

/-- 00E0 (R135). -/
def execCls (s : State) : Result := .next s.clearScreen

/-- One sprite bit at one pixel (R136): a set bit flips the pixel; meeting a set pixel it also sets VF. -/
def State.drawBit (row col : Nat) (bit : Bool) (s : State) : State :=
  if bit then
    if s.getPixel row col then (s.setPixel row col false).setFlag true
    else s.setPixel row col true
  else s

/-- One sprite row from column offset `8 - left` to 7 (R136), stopping at the right edge. -/
def State.drawCols (row x0 : Nat) (byte : Byte) : Nat → State → State
  | 0, s => s
  | left + 1, s =>
    let c := 8 - (left + 1)
    if x0 + c < 64 then
      State.drawCols row x0 byte left (s.drawBit row (x0 + c) (spriteBit byte c))
    else s

/-- The last `left` of the `n` sprite rows (R136), stopping at the bottom edge; row `r` is read at `I + r`. -/
def State.drawRows (x0 y0 n : Nat) : Nat → State → State
  | 0, s => s
  | left + 1, s =>
    let r := n - (left + 1)
    if y0 + r < 32 then
      State.drawRows x0 y0 n left (State.drawCols (y0 + r) x0 (s.readMem (s.indexAddr r)) 8 s)
    else s

/-- DXYN (R136): the origin is taken from the registers before VF is cleared (D22, log 13). -/
def execDrw (x y : Reg) (n : Nat) (s : State) : Result :=
  let x0 := s.spriteCol x
  let y0 := s.spriteRow y
  .next (State.drawRows x0 y0 n n (s.setFlag false))

end Sys2Proof.Machine
end

