-- ==== Sys2Proof/Machine/Flow.lean ====
section
/-! DEFINITION. Control flow (spec/41_flow.md): 00EE, 1NNN, 2NNN, 3XNN, 4XNN, 5XY0, 9XY0, BNNN. A handler sees PC as
the fetch left it, the address of its instruction plus 2 (R91). -/

namespace Sys2Proof.Machine

/-- 00EE (R100): pop the stack into PC; nothing when it is empty. -/
def execRet (s : State) : Result :=
  match s.pop with
  | some (target, t) => .next { t with pc := target }
  | none => .next s

/-- 1NNN (R101): any target, even or odd. -/
def execJp (nnn : Addr12) (s : State) : Result := .next { s with pc := zextAddr nnn }

/-- 2NNN under a stack capacity (R102): an odd target is refused, with no push and no jump (log 19); a push on a full
stack, which only a finite capacity has, is the model's fault (D6, log 5). -/
def callWith (cap : Option Nat) (nnn : Addr12) (s : State) : Result :=
  if nnn.toNat % 2 = 0 then
    match s.push cap s.pc with
    | some t => .next { t with pc := zextAddr nnn }
    | none => .fault .stackFull
  else .next s

/-- 2NNN (R102), with STACK_CAP as `params` gives it. -/
def execCall (nnn : Addr12) (s : State) : Result := callWith params.stackCap nnn s

/-- 3XNN (R103). -/
def execSeImm (x : Reg) (nn : Byte) (s : State) : Result := .next (s.skipIf (s.getV x == nn))

/-- 4XNN (R104). -/
def execSneImm (x : Reg) (nn : Byte) (s : State) : Result := .next (s.skipIf (s.getV x != nn))

/-- 5XY0 (R105). -/
def execSeReg (x y : Reg) (s : State) : Result := .next (s.skipIf (s.getV x == s.getV y))

/-- 9XY0 (R106). -/
def execSneReg (x y : Reg) (s : State) : Result := .next (s.skipIf (s.getV x != s.getV y))

/-- BNNN (R107). -/
def execJpV0 (nnn : Addr12) (s : State) : Result := .next { s with pc := s.jumpV0Target nnn }

end Sys2Proof.Machine
end

