-- ==== Sys2Proof/Machine/Index.lean ====
section
/-! DEFINITION. Index register and memory transfer (spec/43_index_memory.md): ANNN, FX1E, FX29, FX33, FX55, FX65. Each
byte is range-checked on its own (R51, R52). -/

namespace Sys2Proof.Machine

/-- ANNN (R125). -/
def execLdI (nnn : Addr12) (s : State) : Result := .next { s with i := zextAddr nnn }

/-- FX1E (R126): modulo 65536, no flag. -/
def execAddI (x : Reg) (s : State) : Result := .next { s with i := s.i + zextByte (s.getV x) }

/-- FX29 (R127). -/
def execLdF (x : Reg) (s : State) : Result := .next { s with i := glyphAddr (s.getV x) }

/-- FX33 (R128): hundreds at I, tens at I + 1, ones at I + 2. -/
def execLdB (x : Reg) (s : State) : Result :=
  let a := s.getV x
  .next (((s.writeMem (s.indexAddr 0) (bcdHundreds a)).writeMem (s.indexAddr 1) (bcdTens a)).writeMem
    (s.indexAddr 2) (bcdOnes a))

/-- Store V0 to V(n-1) at ascending addresses from `base` (R129, R130). -/
def State.storeRegs (base : Nat) : Nat → State → State
  | 0, s => s
  | k + 1, s =>
    let t := State.storeRegs base k s
    t.writeMem (base + k) (t.getV k)

/-- FX55 (R130): V0 to VX to I, I + 1, ..., then I advances by X + 1. -/
def execStRegs (x : Reg) (s : State) : Result :=
  .next ((State.storeRegs (s.indexAddr 0) (x.val + 1) s).bumpIndex (x.val + 1))

/-- Load V0 to V(n-1) from ascending addresses from `base` (R129, R131). -/
def State.loadRegs (base : Nat) : Nat → State → State
  | 0, s => s
  | k + 1, s =>
    let t := State.loadRegs base k s
    t.setV k (t.readMem (base + k))

/-- FX65 (R131): I, I + 1, ... to V0 to VX, then I advances by X + 1. -/
def execLdRegs (x : Reg) (s : State) : Result :=
  .next ((State.loadRegs (s.indexAddr 0) (x.val + 1) s).bumpIndex (x.val + 1))

end Sys2Proof.Machine
end

