-- ==== Sys2Proof/Machine/KeysTimers.lean ====
section
/-! DEFINITION. Keys and timers (spec/45_keys_timers.md): EX9E, EXA1, FX07, FX0A, FX15, FX18. The events that change
the latch and the timers from outside are in Sys2Proof/Machine/HostOps.lean. -/

namespace Sys2Proof.Machine

/-- EX9E (R145): the whole byte V[X] is the key number (D10, log 15). -/
def execSkp (x : Reg) (s : State) : Result := .next (s.skipIf (s.key (s.getV x).toNat))

/-- EXA1 (R146). -/
def execSknp (x : Reg) (s : State) : Result := .next (s.skipIf (!s.key (s.getV x).toNat))

/-- FX07 (R147). -/
def execLdVxDt (x : Reg) (s : State) : Result := .next (s.setV x s.dt)

/-- FX0A (R148): the machine waits; the register is written by the key-down event that ends the wait (log 16). -/
def execLdVxK (x : Reg) (s : State) : Result := .next { s with wait := .waitKey x }

/-- FX15 (R149): the sound timer is not written. -/
def execLdDtVx (x : Reg) (s : State) : Result := .next { s with dt := s.getV x }

/-- FX18 (R150). -/
def execLdStVx (x : Reg) (s : State) : Result := .next { s with st := s.getV x }

end Sys2Proof.Machine
end

