-- ==== Sys2Proof/Machine/HostOps.lean ====
section
/-! DEFINITION. What the host can do to the machine between steps (R12, R162 to R167, R192, R193): timer ticks, key
events, cancel, program load, setters. Each is atomic and total (R9). -/

namespace Sys2Proof.Machine

/-- The host operations that change the state. Register and key numbers, addresses and values are what the host
passes: any natural number. -/
inductive HostOp where
  | tickDelay
  | tickSound
  | keyDown (k : Nat)
  | keyUp (k : Nat)
  | cancel
  | load (buf : List Byte) (addr : Nat)
  | setV (i value : Nat)
  | setI (value : Nat)
  | setPC (value : Nat)
  | write (addr : Nat) (b : Byte)
  | setPixel (row col : Nat) (b : Bool)
  | clear
  deriving DecidableEq, Repr

/-- A timer after one tick: down by one, clamped at 0 (R27, R163, R164). -/
def tick (timer : Byte) : Byte := if timer = 0 then 0 else timer - 1

/-- `KeyDown(k)` (R165): sets the latch and, during a wait, completes FX0A. -/
def State.keyDown (s : State) (k : Nat) : State :=
  if k < 16 then
    let t := s.setKey k true
    match t.wait with
    | .waitKey x => { t.setV x (BitVec.ofNat 8 k) with wait := .run }
    | .run => t
  else s

/-- `Cancel()` (R167): ends a wait without writing the register. -/
def State.cancel (s : State) : State :=
  match s.wait with
  | .waitKey _ => { s with wait := .run }
  | .run => s

/-- `Load(buf, addr)` (R192): memory only, ascending, each byte range-checked, the address not wrapped (log 18). -/
def State.load (buf : List Byte) (addr : Nat) (s : State) : State := { s with mem := Memory.load buf addr s.mem }

/-- The effect of a host operation. The setters reduce their argument to the register's width (R193; D20, log 18). -/
def State.host (s : State) : HostOp → State
  | .tickDelay => { s with dt := tick s.dt }
  | .tickSound => { s with st := tick s.st }
  | .keyDown k => s.keyDown k
  | .keyUp k => s.setKey k false
  | .cancel => s.cancel
  | .load buf addr => State.load buf addr s
  | .setV i value => s.setV i (BitVec.ofNat 8 value)
  | .setI value => { s with i := BitVec.ofNat 16 value }
  | .setPC value => { s with pc := BitVec.ofNat 16 value }
  | .write addr b => s.writeMem addr b
  | .setPixel row col b => s.setPixel row col b
  | .clear => s.clearScreen

end Sys2Proof.Machine
end

