-- ==== Sys2Proof/Machine/Cycle.lean ====
section
/-! DEFINITION. The step cycle (spec/40_step_cycle.md): fetch, decode, dispatch, the unknown opcode, the wait state,
and what a step reports to the host (R90 to R96). Sys2Proof/Machine/Step.lean only calls it. -/

namespace Sys2Proof.Machine

/-- What a step reports to the host (R96): an output, held in no state (R93; log 8). -/
inductive StepResult where
  | done
  | unknown (op : Word)
  | blocked
  deriving DecidableEq, Repr

/-- `Decode(Fetch())` of a state (R90) under given parameters (STRICT_DECODE, R79): the instruction at PC. -/
def State.decodedWith (p : Params) (s : State) : Decoded := decodeWith p.strictDecode s.fetchWord

/-- The handler of an instruction under given parameters (R5, R92). STACK_CAP is a parameter of 2NNN (R102); no other
handler has one. -/
def execWith (p : Params) (i : Instr) (s : State) : Result :=
  match i with
  | .call nnn => callWith p.stackCap nnn s
  | .cls | .ret | .jp _ | .seImm _ _ | .sneImm _ _ | .seReg _ _ | .ldImm _ _ | .addImm _ _
  | .ldReg _ _ | .orReg _ _ | .andReg _ _ | .xorReg _ _ | .addReg _ _ | .sub _ _ | .shr _ _ | .subn _ _
  | .shl _ _ | .sneReg _ _ | .ldI _ | .jpV0 _ | .rnd _ _ | .drw _ _ _ | .skp _ | .sknp _ | .ldVxDt _
  | .ldVxK _ | .ldDtVx _ | .ldStVx _ | .addI _ | .ldF _ | .ldB _ | .stRegs _ | .ldRegs _ => exec i s

/-- One `Step` (R90) under given parameters: nothing while waiting (R95); else fetch, advance PC, and run the handler, or
nothing for an unknown opcode (R93). -/
def cycleWith (p : Params) (s : State) : Result :=
  match s.wait with
  | .waitKey _ => .next s
  | .run =>
    match s.decodedWith p with
    | .unknown _ => .next s.advance
    | .instr i => execWith p i s.advance

/-- Whether an instruction suspends the machine: FX0A alone (R90, R148, R176). -/
def suspends (i : Instr) : Bool :=
  match i with
  | .ldVxK _ => true
  | .cls | .ret | .jp _ | .call _ | .seImm _ _ | .sneImm _ _ | .seReg _ _ | .ldImm _ _ | .addImm _ _
  | .ldReg _ _ | .orReg _ _ | .andReg _ _ | .xorReg _ _ | .addReg _ _ | .sub _ _ | .shr _ _ | .subn _ _
  | .shl _ _ | .sneReg _ _ | .ldI _ | .jpV0 _ | .rnd _ _ | .drw _ _ _ | .skp _ | .sknp _ | .ldVxDt _
  | .ldDtVx _ | .ldStVx _ | .addI _ | .ldF _ | .ldB _ | .stRegs _ | .ldRegs _ => false

/-- The result of the step that starts in a state (R96), under given parameters. DESIGN CHOICE (log 24): for a step that
faults, 2NNN on a stack a finite STACK_CAP finds full, the spec gives no result (D6, U2), and the value here, `done`, stands
for none. -/
def stepResultWith (p : Params) (s : State) : StepResult :=
  match s.wait with
  | .waitKey _ => .blocked
  | .run =>
    match s.decodedWith p with
    | .unknown op => .unknown op
    | .instr i => if suspends i then .blocked else .done

/-! ### The same under the parameters this model takes -/

/-- The instruction at PC, with STRICT_DECODE as `params` gives it. -/
def State.decoded (s : State) : Decoded := s.decodedWith params

/-- One `Step` (R90), with the parameters as `params` gives them. -/
def cycle (s : State) : Result := cycleWith params s

/-- The result of that step (R96). -/
def stepResult (s : State) : StepResult := stepResultWith params s

end Sys2Proof.Machine
end

