-- ==== Sys2Proof/Machine/Step.lean ====
section
/-! DEFINITION. The step of the machine (R90), how a program word is placed under it, and the moves of the whole system:
a step of the engine or an operation of the host, serialised (R12, R168). -/

namespace Sys2Proof.Machine

/-- One step (R90) under given parameters (R5). -/
def stepWith (p : Params) (s : State) : Result := cycleWith p s

/-- One step (R90): `stepWith` at the parameters of this model. -/
def step (s : State) : Host.Outcome State Fault Refusal := cycle s

/-- The state with an instruction, numbered as spec/opcode_table.json numbers its bits (those from `nbits` on are 0),
stored where the next step fetches. It stands for the host's `Load` and `SetPC` (R192 to R194; log 10). -/
def State.withFetchWord (s : State) (nbits w : Nat) : State := s.placeWord (BitVec.ofNat 16 (w % 2 ^ nbits))

/-- A move of the system (R12): a step of the engine, or an operation of the host. -/
inductive Move where
  | step
  | host (op : HostOp)
  deriving DecidableEq, Repr

/-- The effect of one move, under given parameters. -/
def State.moveWith (p : Params) (s : State) : Move → Result
  | .step => stepWith p s
  | .host op => .next (s.host op)

/-- A history (R61, R168) under given parameters: moves one after another, stopping at the first fault or refusal. -/
def State.historyWith (p : Params) (s : State) : List Move → Result
  | [] => .next s
  | m :: ms =>
    match s.moveWith p m with
    | .next t => State.historyWith p t ms
    | .fault f => .fault f
    | .refused r => .refused r

/-- A history of this model. -/
def State.history (s : State) (moves : List Move) : Result := s.historyWith params moves

end Sys2Proof.Machine
end

