-- ==== Sys2Proof/Safety.lean ====
section
/-! DEFINITION. The terms claims use: the places a state consists of, which of them each instruction may write (the
access table R32), the invariant, and the end of a program (R197). -/

namespace Sys2Proof.Machine

/-- The observable places of a state (10_state.md): one register, one byte of memory, one pixel, one key, and the
other fields. -/
inductive Place where
  | reg (r : Reg)
  | index
  | pc
  | stack
  | byte (a : Nat)
  | pixel (row col : Nat)
  | delay
  | sound
  | key (k : Nat)
  | wait
  | draws
  deriving DecidableEq, Repr

/-- Two states agree at a place. -/
def sameAt (p : Place) (s t : State) : Prop :=
  match p with
  | .reg r => t.getV r = s.getV r
  | .index => t.i = s.i
  | .pc => t.pc = s.pc
  | .stack => t.stack = s.stack
  | .byte a => t.readMem a = s.readMem a
  | .pixel row col => t.getPixel row col = s.getPixel row col
  | .delay => t.dt = s.dt
  | .sound => t.st = s.st
  | .key k => t.key k = s.key k
  | .wait => t.wait = s.wait
  | .draws => t.draws = s.draws

/-- The places a handler may write, from the `w` entries of the access table (R32) and the rules of the single
instructions. The bytes of FX33 are those at I, I + 1, I + 2, those of FX55 at I to I + X (`State.indexAddr`, as the
meanings compute them); the pixels of DXYN are those of its N rows of eight from the wrapped origin. `draws` is the
model's own place: CXNN consumes a draw. -/
def mayWrite (i : Instr) (s : State) (p : Place) : Bool :=
  match i with
  | .cls => match p with
    | .pixel _ _ => true
    | _ => false
  | .ret => p == .pc || p == .stack
  | .jp _ => p == .pc
  | .call _ => p == .pc || p == .stack
  | .seImm _ _ => p == .pc
  | .sneImm _ _ => p == .pc
  | .seReg _ _ => p == .pc
  | .sneReg _ _ => p == .pc
  | .ldImm x _ => p == .reg x
  | .addImm x _ => p == .reg x
  | .ldReg x _ => p == .reg x
  | .orReg x _ => p == .reg x
  | .andReg x _ => p == .reg x
  | .xorReg x _ => p == .reg x
  | .addReg x _ => p == .reg x || p == .reg VF
  | .sub x _ => p == .reg x || p == .reg VF
  | .shr _ y => p == .reg y || p == .reg VF
  | .subn _ y => p == .reg y || p == .reg VF
  | .shl _ y => p == .reg y || p == .reg VF
  | .ldI _ => p == .index
  | .jpV0 _ => p == .pc
  | .rnd x _ => p == .reg x || p == .draws
  | .drw x y n => match p with
    | .reg r => r == VF
    | .pixel row col =>
      decide (s.spriteRow y ≤ row ∧ row < s.spriteRow y + n ∧ s.spriteCol x ≤ col ∧ col < s.spriteCol x + 8)
    | _ => false
  | .skp _ => p == .pc
  | .sknp _ => p == .pc
  | .ldVxDt x => p == .reg x
  | .ldVxK _ => p == .wait
  | .ldDtVx _ => p == .delay
  | .ldStVx _ => p == .sound
  | .addI _ => p == .index
  | .ldF _ => p == .index
  | .ldB _ => match p with
    | .byte a => a == s.indexAddr 0 || a == s.indexAddr 1 || a == s.indexAddr 2
    | _ => false
  | .stRegs x => match p with
    | .byte a => decide (s.indexAddr 0 ≤ a ∧ a ≤ s.indexAddr x)
    | .index => true
    | _ => false
  | .ldRegs x => match p with
    | .reg r => decide (r ≤ x)
    | .index => true
    | _ => false

/-- The frame of an instruction: every place it may not write is as before. -/
def Frame (i : Instr) (s t : State) : Prop := ∀ p, mayWrite i s p = false → sameAt p s t

/-- Every place but those of a list is as before. -/
def SameBut (places : List Place) (s t : State) : Prop := ∀ p, p ∉ places → sameAt p s t

/-- The invariant of the machine under given parameters: memory is in canonical form (log 7), and the stack is within
STACK_CAP (R5, R24). -/
def State.InvWith (p : Params) (s : State) : Prop := Memory.wf s.mem ∧ ∀ c, p.stackCap = some c → s.stack.length ≤ c

/-- The invariant under the parameters of this model. -/
def State.Inv (s : State) : Prop := s.InvWith params

/-- The end of a program, the spec's convention (R197, D26): a jump to itself, not waiting. -/
def ProgramEnded (s : State) : Prop :=
  s.wait = .run ∧ ∃ nnn, s.decoded = .instr (.jp nnn) ∧ zextAddr nnn = s.pc

/-- A step is safe when it is neither a fault nor a refusal (R160). -/
def SafeStep (s : State) : Prop := ∃ t, step s = .next t

end Sys2Proof.Machine
end

