-- ==== Sys2Proof/Certificates/Slice0/Obligations.lean ====
section
/-! DEFINITION. The statements for the provers. Each docstring names the rule of spec/ it formalises; where a clause rests
on a decision or an inference the spec marks as its own, or on a choice of the model, the docstring says so.

`Frame i s t` (Sys2Proof/Safety.lean) says that every place outside those `mayWrite i s` names is in `t` as in `s`:
every register, the index register, PC, the stack, every byte of memory, every pixel, both timers, every key, the wait
state. In every statement about `exec`, `s` is the state the fetch left, PC already past the instruction (R91). -/

open Sys2Proof Sys2Proof.Machine

/-! ### Encoding -/

/-- Words written out from R71 and R74, one or more of every family, decode to their instructions (R86's own example
0x83A4 among them); 0x0000 and 0x8128 are unknown opcodes (R80). -/
def Obligations.SampleWordsDecode : Prop :=
  decode 0x00E0 = .instr .cls ∧ decode 0x00EE = .instr .ret ∧ decode 0x1234 = .instr (.jp 0x234) ∧
  decode 0x2300 = .instr (.call 0x300) ∧ decode 0x3A05 = .instr (.seImm 10 0x05) ∧
  decode 0x4211 = .instr (.sneImm 2 0x11) ∧ decode 0x5340 = .instr (.seReg 3 4) ∧
  decode 0x6A2F = .instr (.ldImm 10 0x2F) ∧ decode 0x7F01 = .instr (.addImm 15 0x01) ∧
  decode 0x83A4 = .instr (.addReg 3 10) ∧ decode 0x812E = .instr (.shl 1 2) ∧
  decode 0x9340 = .instr (.sneReg 3 4) ∧
  decode 0xA2F0 = .instr (.ldI 0x2F0) ∧ decode 0xB300 = .instr (.jpV0 0x300) ∧
  decode 0xC30F = .instr (.rnd 3 0x0F) ∧ decode 0xD121 = .instr (.drw 1 2 1) ∧
  decode 0xE19E = .instr (.skp 1) ∧ decode 0xFF55 = .instr (.stRegs 15) ∧
  decode 0x0000 = .unknown 0x0000 ∧ decode 0x8128 = .unknown 0x8128

/-- DECODE AND ENCODE AGREE (R86, which the spec derives): the word of every well-formed instruction decodes to it,
with every operand at every value, whichever value STRICT_DECODE has. -/
def Obligations.DecodeOfEncodeIsTheInstruction : Prop :=
  ∀ (strict : Bool) (i : Instr), i.wellFormed = true → decodeWith strict (encode i) = .instr i

/-- The other direction under STRICT_DECODE = true (R85, R86, which the spec derives): a word that decodes to an
instruction is the encoder's word of it, and the instruction is well formed. -/
def Obligations.EncodeOfDecodeIsTheWord : Prop :=
  ∀ (op : Word) (i : Instr), decodeWith true op = .instr i → i.wellFormed = true ∧ encode i = op

/-- The decoder is the opcode map of R74 (masks of R79 for either STRICT_DECODE): a word decodes to an instruction
exactly when a row selects it and builds that instruction, at most one row selects a word (R85), and a word that no row
selects is unknown. -/
def Obligations.DecoderIsTheOpcodeMap : Prop :=
  ∀ (strict : Bool) (op : Word),
    (∀ i, decodeWith strict op = .instr i ↔ ∃ row ∈ opcodeTable, row.selects strict op = true ∧ row.build op = i) ∧
    ((∀ row ∈ opcodeTable, row.selects strict op = false) ↔ decodeWith strict op = .unknown op) ∧
    opcodeTable.Pairwise (fun p q => ¬ (p.selects strict op = true ∧ q.selects strict op = true))

/-- The unknown words under STRICT_DECODE = true are exactly those of R80's table, family by family. -/
def Obligations.UnknownWordsAreThoseOfTheTable : Prop :=
  ∀ op : Word, decodeWith true op = .unknown op ↔
    (nibble1 op = 0x0 ∧ op ≠ 0x00E0 ∧ op ≠ 0x00EE) ∨
    (nibble1 op = 0x5 ∧ nibble4 op ≠ 0) ∨
    (nibble1 op = 0x8 ∧ nibble4 op ∈ [0x8, 0x9, 0xA, 0xB, 0xC, 0xD, 0xF]) ∨
    (nibble1 op = 0x9 ∧ nibble4 op ≠ 0) ∨
    (nibble1 op = 0xE ∧ fieldNN op ∉ [0x9E, 0xA1]) ∨
    (nibble1 op = 0xF ∧ fieldNN op ∉ [0x07, 0x0A, 0x15, 0x18, 0x1E, 0x29, 0x33, 0x55, 0x65])

/-- STRICT_DECODE = false (R79, the spec's decision D7) changes the decoding of no word but 5XYN and 9XYN with N ≠ 0 and
0XE0 and 0XEE with X ≠ 0, which then decode as with that nibble 0. -/
def Obligations.LooseDecodingIgnoresTheZeroNibbles : Prop :=
  ∀ op : Word, decodeWith false op =
    if nibble1 op = 0x5 then .instr (.seReg (fieldX op) (fieldY op))
    else if nibble1 op = 0x9 then .instr (.sneReg (fieldX op) (fieldY op))
    else if nibble1 op = 0x0 ∧ fieldNN op = 0xE0 then .instr .cls
    else if nibble1 op = 0x0 ∧ fieldNN op = 0xEE then .instr .ret
    else decodeWith true op

/-! ### The step cycle -/

/-- The fetched word (R55, R91): the byte at PC is its high byte, the byte at PC + 1 its low byte, each with its own
range check, PC + 1 not wrapped (the spec's decision D2). So at PC = 4095 the low byte is 0, and from 4096 on the word
is 0x0000 (R23). -/
def Obligations.FetchIsBigEndianAndRangeChecked : Prop :=
  ∀ s : State,
    s.fetchWord.toNat = 256 * (s.readMem s.pc.toNat).toNat + (s.readMem (s.pc.toNat + 1)).toNat ∧
    (s.pc.toNat = 4095 → s.fetchWord.toNat = 256 * (s.readMem 4095).toNat) ∧
    (4096 ≤ s.pc.toNat → s.fetchWord = 0x0000)

/-- A STEP RUNS THE DECODED INSTRUCTION (R90, R91): when the machine is not waiting and the word at PC decodes to `i`, the
step is `exec i` at the state whose PC is 2 further, modulo 65536 (the spec's decision D1). -/
def Obligations.StepRunsTheDecodedInstruction : Prop :=
  ∀ (s : State) (i : Instr), s.wait = .run → decode s.fetchWord = .instr i →
    step s = exec i { s with pc := s.pc + 2 }

/-- A word placed under the step by `withFetchWord` (the model's own operation, log 10) is what the next step fetches, in
every state: if it decodes to `i`, the step is `exec i`, PC past it. -/
def Obligations.PlacedWordIsTheNextInstruction : Prop :=
  ∀ (s : State) (op : Word) (i : Instr), decode op = .instr i →
    (s.withFetchWord 16 op.toNat).fetchWord = op ∧ (s.withFetchWord 16 op.toNat).wait = .run ∧
    step (s.withFetchWord 16 op.toNat) = exec i (s.withFetchWord 16 op.toNat).advance

/-- An unknown opcode (R80, R93) is a no-op: PC advances by 2, nothing else changes, and the step reports the word. The
form of the report is the spec's decision D16, kept beside the step by the model (log 8). -/
def Obligations.UnknownOpcodeIsNoOpWithReport : Prop :=
  ∀ (s : State) (op : Word), s.wait = .run → decode s.fetchWord = .unknown op →
    stepResult s = .unknown s.fetchWord ∧ op = s.fetchWord ∧
    ∃ t, step s = .next t ∧ t.pc.toNat = (s.pc.toNat + 2) % 65536 ∧ SameBut [.pc] s t

/-- With PC outside memory (R23, which the spec derives) a step is a no-op on the unknown word 0x0000: PC climbs by 2,
and wraps from 65534 to 0 and from 65535 to 1 (decision D1). -/
def Obligations.StepOutsideMemoryOnlyClimbs : Prop :=
  ∀ s : State, s.wait = .run → 4096 ≤ s.pc.toNat →
    stepResult s = .unknown 0x0000 ∧
    ∃ t, step s = .next t ∧ SameBut [.pc] s t ∧
      t.pc.toNat = (if s.pc.toNat = 65534 then 0 else if s.pc.toNat = 65535 then 1 else s.pc.toNat + 2)

/-- A step while waiting (R95, decision D11) fetches nothing, changes nothing and returns Blocked. -/
def Obligations.StepWhileWaitingChangesNothing : Prop :=
  ∀ (s : State) (x : Reg), s.wait = .waitKey x → step s = .next s ∧ stepResult s = .blocked

/-- The result of a step (R96): Blocked exactly when the machine was waiting or FX0A was executed, Unknown(op) exactly
when the fetched word matched no pattern, Done exactly when another instruction was executed; and after a step the
machine waits exactly when the result was Blocked. -/
def Obligations.StepReportsWhatItDid : Prop :=
  ∀ s : State,
    (stepResult s = .blocked ↔
      (∃ x, s.wait = .waitKey x) ∨ (s.wait = .run ∧ ∃ x, decode s.fetchWord = .instr (.ldVxK x))) ∧
    (∀ op, stepResult s = .unknown op ↔ s.wait = .run ∧ decode s.fetchWord = .unknown op) ∧
    (stepResult s = .done ↔
      s.wait = .run ∧ ∃ i, decode s.fetchWord = .instr i ∧ ∀ x, i ≠ .ldVxK x) ∧
    ∀ t, step s = .next t → (stepResult s = .blocked ↔ t.wait ≠ .run)

/-- The machine never stops (R160, and R90: a step never fails): in every state a step answers a next state. It rests on
the default STACK_CAP, the spec's decision D6 (log 5). -/
def Obligations.EveryStepAnswersANextState : Prop := ∀ s : State, SafeStep s

/-- The end of a program (R197, the spec's decision D26): at a jump to itself a step leaves the whole state as it is. -/
def Obligations.JumpToSelfChangesNothing : Prop := ∀ s : State, ProgramEnded s → step s = .next s

/-! ### Memory and framebuffer -/

/-- The memory contract (R51, R52): a write below 4096 is read back and changes no other byte and nothing else; at 4096
or more a read gives 0 and a write does nothing. -/
def Obligations.MemoryReadAndWriteContract : Prop :=
  ∀ (s : State) (a : Nat) (b : Byte),
    (a < 4096 → (s.writeMem a b).readMem a = b) ∧
    (∀ a', a' ≠ a → (s.writeMem a b).readMem a' = s.readMem a') ∧
    SameBut [.byte a] s (s.writeMem a b) ∧
    (4096 ≤ a → s.readMem a = 0 ∧ s.writeMem a b = s)

/-- Equal memories are equal data: two memories in the model's canonical form (log 7) that read alike at every address
are the same list. -/
def Obligations.CanonicalMemoryIsDeterminedByItsBytes : Prop :=
  ∀ m m' : List Host.Cell, Memory.wf m → Memory.wf m' → (∀ a, Memory.read m a = Memory.read m' a) → m = m'

/-- The framebuffer contract (R65): a pixel written in range is read back and no other pixel changes; out of range a read
gives false and a write changes no pixel; after Clear every pixel is false; IsClear says that every pixel is false; an
in-range pixel set to true makes IsClear false (the spec derives that bound). -/
def Obligations.FramebufferContract : Prop :=
  ∀ (s : State) (row col : Nat) (b : Bool),
    (row < 32 → col < 64 → (s.setPixel row col b).getPixel row col = b) ∧
    (∀ r c, (r, c) ≠ (row, col) → (s.setPixel row col b).getPixel r c = s.getPixel r c) ∧
    (¬ (row < 32 ∧ col < 64) → s.getPixel row col = false ∧
      ∀ r c, (s.setPixel row col b).getPixel r c = s.getPixel r c) ∧
    s.clearScreen.isClear = true ∧
    (s.isClear = true ↔ ∀ r c, s.getPixel r c = false) ∧
    (row < 32 → col < 64 → (s.setPixel row col true).isClear = false)

/-! ### Control flow -/

/-- 1NNN and BNNN (R101, R107), encoding and effect: N1 = 1, N1 = 0xB; PC becomes NNN, or V0 + NNN not reduced; nothing
else changes. -/
def Obligations.JumpsSetTheProgramCounter : Prop :=
  (∀ op : Word, (nibble1 op = 0x1 → decode op = .instr (.jp (fieldNNN op))) ∧
    (nibble1 op = 0xB → decode op = .instr (.jpV0 (fieldNNN op)))) ∧
  ∀ (nnn : Addr12) (s : State),
    (∃ t, exec (.jp nnn) s = .next t ∧ t.pc.toNat = nnn.toNat ∧ Frame (.jp nnn) s t) ∧
    (∃ t, exec (.jpV0 nnn) s = .next t ∧ t.pc.toNat = (s.getV 0).toNat + nnn.toNat ∧ Frame (.jpV0 nnn) s t)

/-- 2NNN (R102) with the default STACK_CAP (decision D6): an even target pushes PC (already the address after the call)
and jumps; an odd one is refused and changes nothing (decision D23). -/
def Obligations.CallPushesAndJumpsOrIsRefused : Prop :=
  ∀ (nnn : Addr12) (s : State),
    (nnn.toNat % 2 = 0 → ∃ t, exec (.call nnn) s = .next t ∧ t.pc.toNat = nnn.toNat ∧
      t.stack = s.pc :: s.stack ∧ Frame (.call nnn) s t) ∧
    (nnn.toNat % 2 = 1 → exec (.call nnn) s = .next s)

/-- 2NNN under a finite STACK_CAP (R24, R102, decision D6): an even target below the cap calls, at the cap it is the
model's fault; an odd target is refused at any depth. -/
def Obligations.CallUnderACapFaultsWhenFull : Prop :=
  ∀ (cap : Nat) (nnn : Addr12) (s : State),
    (nnn.toNat % 2 = 0 → cap ≤ s.stack.length → callWith (some cap) nnn s = .fault .stackFull) ∧
    (nnn.toNat % 2 = 0 → s.stack.length < cap → ∃ t, callWith (some cap) nnn s = .next t ∧
      t.pc.toNat = nnn.toNat ∧ t.stack = s.pc :: s.stack ∧ Frame (.call nnn) s t) ∧
    (nnn.toNat % 2 = 1 → callWith (some cap) nnn s = .next s)

/-- 00EE (R100), encoding and effect: it pops the stack into PC, the value used as it is; nothing when the stack is empty;
and after a call it restores PC to the instruction after that call. -/
def Obligations.ReturnPopsOrDoesNothing : Prop :=
  decode 0x00EE = .instr .ret ∧
  ∀ s : State,
    (∀ w rest, s.stack = w :: rest → ∃ t, exec .ret s = .next t ∧ t.pc = w ∧ t.stack = rest ∧ Frame .ret s t) ∧
    (s.stack = [] → exec .ret s = .next s) ∧
    (∀ (nnn : Addr12) (t u : State), nnn.toNat % 2 = 0 → exec (.call nnn) s = .next t → u.stack = t.stack →
      ∃ w, exec .ret u = .next w ∧ w.pc = s.pc ∧ w.stack = s.stack)

/-- Call then return as two steps (R100, R102; default STACK_CAP, D6): when the word at PC is a call of an even NNN and
the bytes at NNN are 00 EE, two steps bring PC to the word after the call and everything else back to what it was. -/
def Obligations.CallStepThenReturnStepComesBack : Prop :=
  ∀ (s : State) (nnn : Addr12), s.wait = .run → decode s.fetchWord = .instr (.call nnn) → nnn.toNat % 2 = 0 →
    s.readMem nnn.toNat = 0x00 → s.readMem (nnn.toNat + 1) = 0xEE →
    ∃ t u, step s = .next t ∧ step t = .next u ∧ t.stack = (s.pc + 2) :: s.stack ∧ u.pc = s.pc + 2 ∧
      SameBut [.pc] s u

/-- 3XNN, 4XNN, 5XY0, 9XY0 (R103 to R106), encoding and effect: N1 selects, and for the last two N4 = 0, with
STRICT_DECODE = false any N4; PC moves a further 2, modulo 65536, when the condition holds, and stays otherwise; nothing
else changes. -/
def Obligations.RegisterSkipsMovePastOneWord : Prop :=
  (∀ (strict : Bool) (op : Word),
    (nibble1 op = 0x3 → decodeWith strict op = .instr (.seImm (fieldX op) (fieldNN op))) ∧
    (nibble1 op = 0x4 → decodeWith strict op = .instr (.sneImm (fieldX op) (fieldNN op))) ∧
    (strict = false ∨ nibble4 op = 0x0 →
      (nibble1 op = 0x5 → decodeWith strict op = .instr (.seReg (fieldX op) (fieldY op))) ∧
      (nibble1 op = 0x9 → decodeWith strict op = .instr (.sneReg (fieldX op) (fieldY op))))) ∧
  ∀ (x y : Reg) (nn : Byte) (s : State),
    (∃ t, exec (.seImm x nn) s = .next t ∧ Frame (.seImm x nn) s t ∧
      t.pc.toNat = if s.getV x = nn then (s.pc.toNat + 2) % 65536 else s.pc.toNat) ∧
    (∃ t, exec (.sneImm x nn) s = .next t ∧ Frame (.sneImm x nn) s t ∧
      t.pc.toNat = if s.getV x ≠ nn then (s.pc.toNat + 2) % 65536 else s.pc.toNat) ∧
    (∃ t, exec (.seReg x y) s = .next t ∧ Frame (.seReg x y) s t ∧
      t.pc.toNat = if s.getV x = s.getV y then (s.pc.toNat + 2) % 65536 else s.pc.toNat) ∧
    (∃ t, exec (.sneReg x y) s = .next t ∧ Frame (.sneReg x y) s t ∧
      t.pc.toNat = if s.getV x ≠ s.getV y then (s.pc.toNat + 2) % 65536 else s.pc.toNat)

/-- EX9E and EXA1 (R145, R146): skip when the key numbered by the whole byte V[X] is down, or up; a number of 16 or more
is up (decision D10), so EX9E does not skip and EXA1 does; nothing else changes. -/
def Obligations.KeySkipsTestTheLatch : Prop :=
  ∀ (x : Reg) (s : State),
    (∃ t, exec (.skp x) s = .next t ∧ Frame (.skp x) s t ∧
      t.pc.toNat = if s.key (s.getV x).toNat = true then (s.pc.toNat + 2) % 65536 else s.pc.toNat) ∧
    (∃ t, exec (.sknp x) s = .next t ∧ Frame (.sknp x) s t ∧
      t.pc.toNat = if s.key (s.getV x).toNat = true then s.pc.toNat else (s.pc.toNat + 2) % 65536) ∧
    (16 ≤ (s.getV x).toNat → exec (.skp x) s = .next s ∧ exec (.sknp x) s = .next { s with pc := s.pc + 2 })

/-! ### Register loads and the ALU -/

/-- 6XNN, 7XNN, 8XY0 (R111, R112, R113), encoding and effect: V[X] becomes NN, (V[X] + NN) mod 256, V[Y]; nothing else changes, VF not
either unless it is V[X]. -/
def Obligations.LoadsAndAddImmediate : Prop :=
  (∀ op : Word, (nibble1 op = 0x6 → decode op = .instr (.ldImm (fieldX op) (fieldNN op))) ∧
    (nibble1 op = 0x7 → decode op = .instr (.addImm (fieldX op) (fieldNN op))) ∧
    (nibble1 op = 0x8 ∧ nibble4 op = 0x0 → decode op = .instr (.ldReg (fieldX op) (fieldY op)))) ∧
  ∀ (x y : Reg) (nn : Byte) (s : State),
    (∃ t, exec (.ldImm x nn) s = .next t ∧ t.getV x = nn ∧ Frame (.ldImm x nn) s t) ∧
    (∃ t, exec (.addImm x nn) s = .next t ∧ (t.getV x).toNat = ((s.getV x).toNat + nn.toNat) % 256 ∧
      Frame (.addImm x nn) s t) ∧
    (∃ t, exec (.ldReg x y) s = .next t ∧ t.getV x = s.getV y ∧ Frame (.ldReg x y) s t)

/-- 8XY1, 8XY2, 8XY3 (R114, R115, R116), bit by bit; nothing else changes, and VF not either unless it is V[X] (which
the spec derives from the table's silence). -/
def Obligations.BitwiseOperationsLeaveTheFlag : Prop :=
  ∀ (x y : Reg) (s : State),
    (∃ t, exec (.orReg x y) s = .next t ∧ Frame (.orReg x y) s t ∧
      ∀ k, (t.getV x).getLsbD k = ((s.getV x).getLsbD k || (s.getV y).getLsbD k)) ∧
    (∃ t, exec (.andReg x y) s = .next t ∧ Frame (.andReg x y) s t ∧
      ∀ k, (t.getV x).getLsbD k = ((s.getV x).getLsbD k && (s.getV y).getLsbD k)) ∧
    (∃ t, exec (.xorReg x y) s = .next t ∧ Frame (.xorReg x y) s t ∧
      ∀ k, (t.getV x).getLsbD k = ((s.getV x).getLsbD k ^^ (s.getV y).getLsbD k))

/-- 8XY4 (R117, R124): VF is the carry, V[X] the sum modulo 256, with X = F the carry alone stands (decision D9). -/
def Obligations.AddRegistersSetsTheCarry : Prop :=
  ∀ (x y : Reg) (s : State), ∃ t, exec (.addReg x y) s = .next t ∧ Frame (.addReg x y) s t ∧
    (t.getV VF).toNat = (if (s.getV x).toNat + (s.getV y).toNat > 255 then 1 else 0) ∧
    (x ≠ VF → (t.getV x).toNat = ((s.getV x).toNat + (s.getV y).toNat) % 256)

/-- 8XY5 (R118, R124): VF is 1 when no borrow occurs and V[X] the difference modulo 256; with X = F only the flag is
written. The subtrahend is the old V[Y] also for Y = F (decision D8). -/
def Obligations.SubtractSetsNoBorrow : Prop :=
  ∀ (x y : Reg) (s : State), ∃ t, exec (.sub x y) s = .next t ∧ Frame (.sub x y) s t ∧
    (t.getV VF).toNat = (if (s.getV y).toNat ≤ (s.getV x).toNat then 1 else 0) ∧
    (x ≠ VF → (t.getV x).toNat = ((s.getV x).toNat + 256 - (s.getV y).toNat) % 256)

/-- 8XY6 and 8XYE (R119, R121, R124): V[Y] receives V[X] shifted by one, VF the old bit 0 of V[X] in both; with Y = F the
result stands (decision D9), and the source is the old V[X] also for X = F (decision D8). -/
def Obligations.ShiftsGoIntoVyWithOldBit0 : Prop :=
  ∀ (x y : Reg) (s : State),
    (∃ t, exec (.shr x y) s = .next t ∧ Frame (.shr x y) s t ∧
      (t.getV y).toNat = (s.getV x).toNat / 2 ∧ (y ≠ VF → (t.getV VF).toNat = (s.getV x).toNat % 2)) ∧
    (∃ t, exec (.shl x y) s = .next t ∧ Frame (.shl x y) s t ∧
      (t.getV y).toNat = (s.getV x).toNat * 2 % 256 ∧ (y ≠ VF → (t.getV VF).toNat = (s.getV x).toNat % 2))

/-- 8XY7 as the table row has it (R120, R124; conflict C1, decision D17, log 14): V[Y] receives V[X] - V[Y], VF whether
V[X] <= V[Y]; with Y = F the difference stands (D9), and both sources are the old values (D8). -/
def Obligations.SubnFollowsTheTableRow : Prop :=
  ∀ (x y : Reg) (s : State), ∃ t, exec (.subn x y) s = .next t ∧ Frame (.subn x y) s t ∧
    (t.getV y).toNat = ((s.getV x).toNat + 256 - (s.getV y).toNat) % 256 ∧
    (y ≠ VF → (t.getV VF).toNat = if (s.getV x).toNat ≤ (s.getV y).toNat then 1 else 0)

/-- CXNN (R122): V[X] is the drawn byte, a free value (decision D12, log 6), under the mask: no bit outside NN is set,
with NN = 0 it is 0; one draw is consumed and nothing else changes. It holds for every value of the draw. -/
def Obligations.RandomByteIsMasked : Prop :=
  ∀ (x : Reg) (nn : Byte) (s : State), ∃ t, exec (.rnd x nn) s = .next t ∧ Frame (.rnd x nn) s t ∧
    t.getV x = Config.draw s.draws &&& nn ∧ t.getV x &&& ~~~nn = 0 ∧ (nn = 0 → t.getV x = 0) ∧
    t.draws = s.draws + 1

/-! ### Index register and memory transfer -/

/-- ANNN, FX1E, FX29 (R125, R126, R127), encoding and effect: I becomes NNN, (I + V[X]) mod 65536, 0x050 + 5 * V[X] with the whole byte used;
nothing else changes, VF not either. -/
def Obligations.IndexRegisterLoads : Prop :=
  (∀ op : Word, (nibble1 op = 0xA → decode op = .instr (.ldI (fieldNNN op))) ∧
    (nibble1 op = 0xF ∧ fieldNN op = 0x1E → decode op = .instr (.addI (fieldX op))) ∧
    (nibble1 op = 0xF ∧ fieldNN op = 0x29 → decode op = .instr (.ldF (fieldX op)))) ∧
  ∀ (x : Reg) (nnn : Addr12) (s : State),
    (∃ t, exec (.ldI nnn) s = .next t ∧ t.i.toNat = nnn.toNat ∧ Frame (.ldI nnn) s t) ∧
    (∃ t, exec (.addI x) s = .next t ∧ t.i.toNat = (s.i.toNat + (s.getV x).toNat) % 65536 ∧ Frame (.addI x) s t) ∧
    (∃ t, exec (.ldF x) s = .next t ∧ t.i.toNat = 80 + 5 * (s.getV x).toNat ∧ Frame (.ldF x) s t)

/-- FX33 (R128): the three decimal digits of V[X], hundreds at I, tens at I + 1, ones at I + 2, the sums not wrapped
(R58, decision D2), a byte at 4096 or more dropped on its own; no other byte changes, I does not change. -/
def Obligations.BcdStoresTheThreeDigits : Prop :=
  ∀ (x : Reg) (s : State), ∃ t, exec (.ldB x) s = .next t ∧ Frame (.ldB x) s t ∧
    ∃ h d o : Byte, h.toNat ≤ 2 ∧ d.toNat ≤ 9 ∧ o.toNat ≤ 9 ∧
      100 * h.toNat + 10 * d.toNat + o.toNat = (s.getV x).toNat ∧
      (s.indexAddr 0 < 4096 → t.readMem (s.indexAddr 0) = h) ∧
      (s.indexAddr 1 < 4096 → t.readMem (s.indexAddr 1) = d) ∧
      (s.indexAddr 2 < 4096 → t.readMem (s.indexAddr 2) = o)

/-- FX55 (R129, R130): V0 to V[X] go to I, I + 1, ..., I + X (sums not wrapped, decision D2), a byte at 4096 or more
dropped on its own; no other byte and no register changes; I advances by X + 1 modulo 65536. -/
def Obligations.StoreRegistersAndAdvanceIndex : Prop :=
  ∀ (x : Reg) (s : State), ∃ t, exec (.stRegs x) s = .next t ∧ Frame (.stRegs x) s t ∧
    (∀ k, k ≤ x.val → s.indexAddr k < 4096 → t.readMem (s.indexAddr k) = s.getV k) ∧
    t.i.toNat = (s.i.toNat + x.val + 1) % 65536

/-- FX65 (R129, R131): the bytes at I, I + 1, ..., I + X go to V0 to V[X], 0 for an address of 4096 or more; no higher
register and no byte changes; I advances by X + 1 modulo 65536. -/
def Obligations.LoadRegistersAndAdvanceIndex : Prop :=
  ∀ (x : Reg) (s : State), ∃ t, exec (.ldRegs x) s = .next t ∧ Frame (.ldRegs x) s t ∧
    (∀ k, k ≤ x.val → t.getV k = s.readMem (s.indexAddr k)) ∧
    (∀ k, k ≤ x.val → 4096 ≤ s.indexAddr k → t.getV k = 0) ∧
    t.i.toNat = (s.i.toNat + x.val + 1) % 65536

/-- Register spill and fill (the round trip of R131, with the condition the spec derives): FX55 and then FX65 with the
same X at the same I, in any state that still reads as the spilled memory, give the registers back, and I ends alike. -/
def Obligations.SpillThenFillGivesTheRegistersBack : Prop :=
  ∀ (x : Reg) (s u : State), s.indexAddr x < 4096 →
    ∃ t, exec (.stRegs x) s = .next t ∧
      (u.i = s.i → (∀ a, u.readMem a = t.readMem a) →
        ∃ w, exec (.ldRegs x) u = .next w ∧ (∀ k, k ≤ x.val → w.getV k = s.getV k) ∧ w.i = t.i)

/-- A store into the instruction stream is seen by the very next fetch (R63, which the spec derives): after a step that
runs FX55 with I at the next word, the word fetched next is V0, V1. -/
def Obligations.StoredWordIsFetchedNext : Prop :=
  ∀ (s : State) (x : Reg), s.wait = .run → decode s.fetchWord = .instr (.stRegs x) → 1 ≤ x.val →
    s.i.toNat = s.pc.toNat + 2 → s.pc.toNat + 3 < 4096 →
    ∃ t, step s = .next t ∧ t.wait = .run ∧ t.fetchWord = wordOfBytes (s.getV 0) (s.getV 1)

/-! ### Display -/

/-- 00E0 (R135), encoding and effect: every pixel is false afterwards, IsClear is true; nothing else changes, VF not either. -/
def Obligations.ClearScreenClearsEveryPixel : Prop :=
  decode 0x00E0 = .instr .cls ∧
  ∀ s : State, ∃ t, exec .cls s = .next t ∧ Frame .cls s t ∧ t.isClear = true ∧
    ∀ row col, t.getPixel row col = false

/-- DXYN (R136, R137): with the origin (V[X] mod 64, V[Y] mod 32) of the registers as they were (decision D22), for every
sprite position inside the screen the pixel is exclusive-ored with bit 7 - c (decision D13) of the byte at I + r, the sum not wrapped (decision D2, log 12); VF is 1
exactly when a set sprite bit met a set pixel, else 0; every other pixel, and everything else, is unchanged. The loops of
R136, with their early exits, compute this. -/
def Obligations.DrawIsXorWithCollision : Prop :=
  ∀ (x y : Reg) (n : Nat) (s : State), ∃ t, exec (.drw x y n) s = .next t ∧ Frame (.drw x y n) s t ∧
    (∀ r c, r < n → c < 8 → (s.getV y).toNat % 32 + r < 32 → (s.getV x).toNat % 64 + c < 64 →
      t.getPixel ((s.getV y).toNat % 32 + r) ((s.getV x).toNat % 64 + c) =
        (s.getPixel ((s.getV y).toNat % 32 + r) ((s.getV x).toNat % 64 + c) ^^
          (s.readMem (s.i.toNat + r)).getLsbD (7 - c))) ∧
    (t.getV VF = 0 ∨ t.getV VF = 1) ∧
    (t.getV VF = 1 ↔ ∃ r c, r < n ∧ c < 8 ∧ (s.getV y).toNat % 32 + r < 32 ∧ (s.getV x).toNat % 64 + c < 64 ∧
      s.getPixel ((s.getV y).toNat % 32 + r) ((s.getV x).toNat % 64 + c) = true ∧
      (s.readMem (s.i.toNat + r)).getLsbD (7 - c) = true)

/-- Two identical draws in succession (R137, which the spec derives; log 21: X and Y not F, since the first draw changes
VF): every pixel is back, and the second reports a collision exactly when a set sprite bit in the drawn range stands over
a pixel that was false before the first; so, over a range that was clear, exactly when the sprite has a set bit in it. -/
def Obligations.DrawingTwiceRestoresTheScreen : Prop :=
  ∀ (x y : Reg) (n : Nat) (s : State), x ≠ VF → y ≠ VF →
    ∃ t u, exec (.drw x y n) s = .next t ∧ exec (.drw x y n) t = .next u ∧
      (∀ row col, u.getPixel row col = s.getPixel row col) ∧
      (u.getV VF = 1 ↔ ∃ r c, r < n ∧ c < 8 ∧ s.spriteRow y + r < 32 ∧ s.spriteCol x + c < 64 ∧
        spriteBit (s.readMem (s.indexAddr r)) c = true ∧
        s.getPixel (s.spriteRow y + r) (s.spriteCol x + c) = false)

/-! ### Keys, timers and host events -/

/-- FX07, FX15, FX18 (R147, R149, R150): V[X] becomes DT; DT becomes V[X] and ST stays; ST becomes V[X] and DT stays;
nothing else changes. -/
def Obligations.TimerRegistersReadAndWritten : Prop :=
  ∀ (x : Reg) (s : State),
    (∃ t, exec (.ldVxDt x) s = .next t ∧ t.getV x = s.dt ∧ Frame (.ldVxDt x) s t) ∧
    (∃ t, exec (.ldDtVx x) s = .next t ∧ t.dt = s.getV x ∧ t.st = s.st ∧ Frame (.ldDtVx x) s t) ∧
    (∃ t, exec (.ldStVx x) s = .next t ∧ t.st = s.getV x ∧ t.dt = s.dt ∧ Frame (.ldStVx x) s t)

/-- FX0A (R148, decision D11): the machine waits with the number of the destination register, whatever keys are down;
nothing else changes. A key-down event then writes the key's number and ends the wait; a cancel ends it writing no
register; in both PC stays past the instruction. -/
def Obligations.WaitForKeyBlocksUntilTheEvent : Prop :=
  ∀ (x : Reg) (s : State), ∃ t, exec (.ldVxK x) s = .next t ∧ t.wait = .waitKey x ∧ Frame (.ldVxK x) s t ∧
    (∀ k, k < 16 → ((t.host (.keyDown k)).getV x).toNat = k ∧ (t.host (.keyDown k)).wait = .run ∧
      (t.host (.keyDown k)).key k = true ∧ SameBut [.reg x, .key k, .wait] t (t.host (.keyDown k))) ∧
    (t.host .cancel).wait = .run ∧ SameBut [.wait] t (t.host .cancel)

/-- What ends a wait (R148, R176, decision D11): a key-down of a key below 16 or a cancel, and nothing else: not a step,
not a tick, not a key-up, not a load, not a setter. -/
def Obligations.OnlyKeyDownOrCancelEndsAWait : Prop :=
  ∀ (s : State) (x : Reg), s.wait = .waitKey x →
    step s = .next s ∧
    ∀ op : HostOp, (s.host op).wait = .waitKey x ∨
      ((s.host op).wait = .run ∧ (op = .cancel ∨ ∃ k, k < 16 ∧ op = .keyDown k))

/-- `KeyDown(k)` and `KeyUp(k)` outside a wait, and `Cancel` there (R165, R166, R167): the latch alone changes, for k
below 16 (larger values are ignored, decision D19); a cancel does nothing. -/
def Obligations.KeyEventsOutsideAWaitSetTheLatch : Prop :=
  ∀ (s : State) (k : Nat), s.wait = .run →
    (k < 16 → (s.host (.keyDown k)).key k = true ∧ (s.host (.keyUp k)).key k = false) ∧
    SameBut [.key k] s (s.host (.keyDown k)) ∧ SameBut [.key k] s (s.host (.keyUp k)) ∧
    (16 ≤ k → s.host (.keyDown k) = s ∧ s.host (.keyUp k) = s) ∧
    s.host .cancel = s

/-- `KeyUp(k)` (R166), in any wait state: for k below 16 it clears that key of the latch, else (the spec's decision D19,
log 18) it does nothing; it completes no wait and changes nothing else. -/
def Obligations.KeyUpClearsOneKey : Prop :=
  ∀ (s : State) (k : Nat),
    (k < 16 → (s.host (.keyUp k)).key k = false) ∧ SameBut [.key k] s (s.host (.keyUp k)) ∧
    (16 ≤ k → s.host (.keyUp k) = s)

/-- The ticks (R163, R164), in either wait state: one timer goes down by 1 and stays at 0, and nothing else changes. -/
def Obligations.TicksCountDownToZero : Prop :=
  ∀ s : State,
    ((s.host .tickDelay).dt.toNat = s.dt.toNat - 1 ∧ SameBut [.delay] s (s.host .tickDelay)) ∧
    ((s.host .tickSound).st.toNat = s.st.toNat - 1 ∧ SameBut [.sound] s (s.host .tickSound))

/-- The events commute (R168, which the spec derives), but for a key-down and a key-up of the same key, two key-downs of
different keys during a wait, and (log 20: R168 omits it, R165 and R167 give it) a key-down and a cancel during a wait. -/
def Obligations.HostEventsCommute : Prop :=
  ∀ (s : State) (j k : Nat),
    (∀ e ∈ [HostOp.tickDelay, .tickSound, .keyDown j, .keyUp j, .cancel],
      (s.host e).host .tickDelay = (s.host .tickDelay).host e ∧
      (s.host e).host .tickSound = (s.host .tickSound).host e) ∧
    (s.host (.keyUp j)).host (.keyUp k) = (s.host (.keyUp k)).host (.keyUp j) ∧
    (s.host (.keyUp j)).host .cancel = (s.host .cancel).host (.keyUp j) ∧
    (j ≠ k → (s.host (.keyDown j)).host (.keyUp k) = (s.host (.keyUp k)).host (.keyDown j)) ∧
    (s.wait = .run → (s.host (.keyDown j)).host (.keyDown k) = (s.host (.keyDown k)).host (.keyDown j) ∧
      (s.host (.keyDown j)).host .cancel = (s.host .cancel).host (.keyDown j))

/-- `Load(buf, addr)` (R192): the bytes stand at ascending addresses from `addr`, those at 4096 or more are dropped, no
other byte and nothing else changes (decision D21). -/
def Obligations.LoadCopiesIntoMemoryOnly : Prop :=
  ∀ (s : State) (buf : List Byte) (addr : Nat),
    (∀ k b, buf[k]? = some b → addr + k < 4096 → (s.host (.load buf addr)).readMem (addr + k) = b) ∧
    (∀ a, a < addr ∨ addr + buf.length ≤ a → (s.host (.load buf addr)).readMem a = s.readMem a) ∧
    (∀ p, (∀ a, p ≠ .byte a) → sameAt p s (s.host (.load buf addr)))

/-- The host's setters of V, I and PC (R67, R193, decision D20): each writes its one item, reduced to its width, and nothing else; a
register number of 16 or more writes nothing and reads as 0. -/
def Obligations.SettersWriteOneItemReduced : Prop :=
  ∀ (s : State) (x : Reg) (n value : Nat),
    (((s.host (.setV x value)).getV x).toNat = value % 256 ∧ SameBut [.reg x] s (s.host (.setV x value))) ∧
    (16 ≤ n → s.host (.setV n value) = s ∧ s.getV n = 0) ∧
    ((s.host (.setI value)).i.toNat = value % 65536 ∧ SameBut [.index] s (s.host (.setI value))) ∧
    ((s.host (.setPC value)).pc.toNat = value % 65536 ∧ SameBut [.pc] s (s.host (.setPC value)))

/-! ### Reset -/

/-- Memory after reset (R35, R36): FONT at 0x050 to 0x09F, zero everywhere else, for every FONT and every other parameter
(R5). -/
def Obligations.ResetMemoryIsZeroAndTheFont : Prop :=
  ∀ p : Params,
    (∀ a, a < 4096 → ¬ (0x050 ≤ a ∧ a ≤ 0x09F) → (State.resetWith p).readMem a = 0x00) ∧
    (∀ (i : Nat) (hi : i < 80), (State.resetWith p).readMem (0x050 + i) = p.font[i])

/-- Everything else after reset (R37 to R44, the spec's decisions D3 and D4), for every parameter setting: registers, I,
both timers 0, stack empty, every pixel false, every key up, not waiting, and PC the parameter RESET_PC. `State.reset` is
the state after reset at the parameters of this model; that those take 0x200 for RESET_PC is the model's choice (log 1),
and no clause here rests on it. -/
def Obligations.ResetClearsEverythingElse : Prop :=
  State.reset = State.resetWith params ∧
  ∀ p : Params, ∃ s, State.resetWith p = s ∧ (∀ r : Reg, s.getV r = 0) ∧ s.i = 0 ∧ s.pc = p.resetPc ∧
    s.stack = [] ∧ (∀ row col, s.getPixel row col = false) ∧ s.isClear = true ∧ s.dt = 0 ∧ s.st = 0 ∧
    (∀ k, s.key k = false) ∧ s.wait = .run

/-- The reset state meets the invariant (canonical memory, log 7; stack within STACK_CAP, R24), for every parameter
setting; `State.reset`, the one of this model, does. -/
def Obligations.ResetMeetsTheInvariant : Prop := (∀ p : Params, (State.resetWith p).InvWith p) ∧ State.reset.Inv

/-! ### The whole machine -/

/-- THE ACCESS TABLE (R32), as the frame of every instruction: whatever an instruction does in whatever state, it changes
no place but those the table lets it write: only 00EE, 2NNN the stack; only FX33, FX55 memory, and only their bytes; only
00E0, DXYN pixels; only FX15 the delay timer, only FX18 the sound timer; none a key; only FX0A the wait state. -/
def Obligations.AccessTableBoundsEveryInstruction : Prop :=
  ∀ (i : Instr) (s t : State), exec i s = .next t → Frame i s t

/-- Every step keeps the invariant, from every state that has it. -/
def Obligations.EveryStepKeepsTheInvariant : Prop :=
  ∀ s t : State, s.Inv → step s = .next t → t.Inv

/-- Every history of steps and host operations from reset (R61, R168), for every parameter setting with an infinite
STACK_CAP (the default, decision D6), the one of this model among them, runs to its end, and ends in a state that meets
the invariant; under a finite STACK_CAP it does so too, or ends in the model's fault of a full stack (log 5). -/
def Obligations.EveryHistoryRunsAndKeepsTheInvariant : Prop :=
  (∀ (p : Params) (moves : List Move), p.stackCap = none →
    ∃ t, (State.resetWith p).historyWith p moves = .next t ∧ t.InvWith p) ∧
  (∀ moves : List Move, ∃ t, State.reset.history moves = .next t ∧ t.Inv) ∧
  (∀ (p : Params) (moves : List Move),
    (∃ t, (State.resetWith p).historyWith p moves = .next t ∧ t.InvWith p) ∨
      (State.resetWith p).historyWith p moves = .fault .stackFull)

/-- The sound timer is read by no instruction (R27, R150): two states that differ in ST alone step to states that differ
in ST alone, with the same result. -/
def Obligations.SoundTimerInfluencesNothing : Prop :=
  ∀ (s : State) (value : Byte), stepResult { s with st := value } = stepResult s ∧
    ∃ t after, step s = .next t ∧ step { s with st := value } = .next { t with st := after }

/-! ### Every parameter setting (R5) -/

/-- The step for every value of the open parameters (R5, R90, R93, R95): a waiting machine is Blocked and unchanged;
STRICT_DECODE decides what the word at PC is; an unknown opcode moves PC on; 2NNN runs under STACK_CAP; every other
instruction runs as `exec` has it. At the parameters of this model this is `step`. That the result beside a call is `done`
also where the call faults on a full stack is the model's choice (log 24): the spec gives that case no result. -/
def Obligations.StepUnderEveryParameterSetting : Prop :=
  (∀ (p : Params) (s : State),
    (∀ x, s.wait = .waitKey x → stepWith p s = .next s ∧ stepResultWith p s = .blocked) ∧
    (∀ op, s.wait = .run → decodeWith p.strictDecode s.fetchWord = .unknown op →
      stepWith p s = .next { s with pc := s.pc + 2 } ∧ stepResultWith p s = .unknown s.fetchWord) ∧
    (∀ nnn, s.wait = .run → decodeWith p.strictDecode s.fetchWord = .instr (.call nnn) →
      stepWith p s = callWith p.stackCap nnn { s with pc := s.pc + 2 } ∧ stepResultWith p s = .done) ∧
    (∀ i, s.wait = .run → decodeWith p.strictDecode s.fetchWord = .instr i → (∀ nnn, i ≠ .call nnn) →
      stepWith p s = exec i { s with pc := s.pc + 2 })) ∧
  (∀ s : State, stepWith params s = step s ∧ stepResultWith params s = stepResult s)

/-- When a step does not answer a next state, for every value of the open parameters (R5): exactly when it runs 2NNN with
an even target on a stack that a finite STACK_CAP finds full, the case the spec gives no meaning (decision D6, log 5);
then it is the model's fault. -/
def Obligations.StepFaultsExactlyOnAFullStack : Prop :=
  ∀ (p : Params) (s : State),
    (stepWith p s = .fault .stackFull ↔
      s.wait = .run ∧ ∃ nnn cap, decodeWith p.strictDecode s.fetchWord = .instr (.call nnn) ∧ nnn.toNat % 2 = 0 ∧
        p.stackCap = some cap ∧ cap ≤ s.stack.length) ∧
    (stepWith p s = .fault .stackFull ∨ ∃ t, stepWith p s = .next t)

/-- Every step keeps the invariant, for every value of the open parameters (R5): under a finite STACK_CAP the stack never
grows past it (R24). -/
def Obligations.EveryStepKeepsTheInvariantOfItsParameters : Prop :=
  ∀ (p : Params) (s t : State), s.InvWith p → stepWith p s = .next t → t.InvWith p
end

