-- ==== Sys2Proof/Laws/Decode.lean ====
section
/-! SUPPORT. The fields of a word and of an encoded instruction (R71, R86): each field of a union of bits is the union of
the fields, and each placed operand fills its own field and no other. -/

namespace Sys2Proof

/-! ### Fields of a union -/

@[simp] theorem nibble1_or (a b : Word) : nibble1 (a ||| b) = nibble1 a ||| nibble1 b := by
  simp [nibble1, BitVec.extractLsb'_or]
@[simp] theorem nibble2_or (a b : Word) : nibble2 (a ||| b) = nibble2 a ||| nibble2 b := by
  simp [nibble2, BitVec.extractLsb'_or]
@[simp] theorem nibble3_or (a b : Word) : nibble3 (a ||| b) = nibble3 a ||| nibble3 b := by
  simp [nibble3, BitVec.extractLsb'_or]
@[simp] theorem nibble4_or (a b : Word) : nibble4 (a ||| b) = nibble4 a ||| nibble4 b := by
  simp [nibble4, BitVec.extractLsb'_or]
@[simp] theorem fieldNN_or (a b : Word) : fieldNN (a ||| b) = fieldNN a ||| fieldNN b := by
  simp [fieldNN, BitVec.extractLsb'_or]
@[simp] theorem fieldNNN_or (a b : Word) : fieldNNN (a ||| b) = fieldNNN a ||| fieldNNN b := by
  simp [fieldNNN, BitVec.extractLsb'_or]

/-! ### Fields of a placed register number -/

@[simp] theorem nibble1_placeX (x : Reg) : nibble1 (placeX x) = 0 := by revert x; decide
@[simp] theorem nibble2_placeX (x : Reg) : nibble2 (placeX x) = BitVec.ofNat 4 x.val := by revert x; decide
@[simp] theorem nibble3_placeX (x : Reg) : nibble3 (placeX x) = 0 := by revert x; decide
@[simp] theorem nibble4_placeX (x : Reg) : nibble4 (placeX x) = 0 := by revert x; decide
@[simp] theorem fieldNN_placeX (x : Reg) : fieldNN (placeX x) = 0 := by revert x; decide
@[simp] theorem nibble1_placeY (y : Reg) : nibble1 (placeY y) = 0 := by revert y; decide
@[simp] theorem nibble2_placeY (y : Reg) : nibble2 (placeY y) = 0 := by revert y; decide
@[simp] theorem nibble3_placeY (y : Reg) : nibble3 (placeY y) = BitVec.ofNat 4 y.val := by revert y; decide
@[simp] theorem nibble4_placeY (y : Reg) : nibble4 (placeY y) = 0 := by revert y; decide

/-- A register number comes back out of its nibble. -/
@[simp] theorem toFin_ofNat_reg (x : Reg) : ((BitVec.ofNat 4 x.val).toFin : Reg) = x := by revert x; decide

/-! ### Fields of a widened operand -/

@[simp] theorem nibble1_setWidth_nn (nn : Byte) : nibble1 (nn.setWidth 16) = 0 := by
  ext i hi
  simp [nibble1, BitVec.getLsbD_of_ge nn (12 + i) (by omega)]
@[simp] theorem nibble2_setWidth_nn (nn : Byte) : nibble2 (nn.setWidth 16) = 0 := by
  ext i hi
  simp [nibble2]
@[simp] theorem fieldNN_setWidth_nn (nn : Byte) : fieldNN (nn.setWidth 16) = nn := by
  ext i hi
  have h : i < 16 := by omega
  simp [fieldNN, h, BitVec.getLsbD_eq_getElem hi]
@[simp] theorem nibble1_setWidth_nnn (nnn : Addr12) : nibble1 (nnn.setWidth 16) = 0 := by
  ext i hi
  simp [nibble1]
@[simp] theorem fieldNNN_setWidth_nnn (nnn : Addr12) : fieldNNN (nnn.setWidth 16) = nnn := by
  ext i hi
  have h : i < 16 := by omega
  simp [fieldNNN, h, BitVec.getLsbD_eq_getElem hi]

/-! ### Fields of a row count -/

/-- A count below 16 stands in the low nibble alone. -/
theorem nibbles_of_count {n : Nat} (h : n < 16) :
    nibble1 (BitVec.ofNat 16 n) = 0 ∧ nibble2 (BitVec.ofNat 16 n) = 0 ∧ nibble3 (BitVec.ofNat 16 n) = 0 ∧
      nibble4 (BitVec.ofNat 16 n) = BitVec.ofNat 4 n := by
  interval_cases n <;> decide

/-! ### Fields of an encoded instruction, for a pattern whose operand fields are empty (R86) -/

theorem fieldNNN_encodeA {p : Word} (hp : fieldNNN p = 0) (nnn : Addr12) : fieldNNN (encodeA p nnn) = nnn := by
  simp [encodeA, hp]

theorem nibble1_encodeA (p : Word) (nnn : Addr12) : nibble1 (encodeA p nnn) = nibble1 p := by
  simp [encodeA]

theorem fieldX_encodeI {p : Word} (hp : nibble2 p = 0) (x : Reg) (nn : Byte) : fieldX (encodeI p x nn) = x := by
  simp [encodeI, fieldX, hp]

theorem fieldNN_encodeI {p : Word} (hp : fieldNN p = 0) (x : Reg) (nn : Byte) : fieldNN (encodeI p x nn) = nn := by
  simp [encodeI, hp]

theorem nibble1_encodeI (p : Word) (x : Reg) (nn : Byte) : nibble1 (encodeI p x nn) = nibble1 p := by
  simp [encodeI]

theorem fieldX_encodeD {p : Word} {n : Nat} (hp : nibble2 p = 0) (hn : n < 16) (x y : Reg) :
    fieldX (encodeD p x y n) = x := by
  simp [encodeD, fieldX, hp, (nibbles_of_count hn).2.1]

theorem fieldY_encodeD {p : Word} {n : Nat} (hp : nibble3 p = 0) (hn : n < 16) (x y : Reg) :
    fieldY (encodeD p x y n) = y := by
  simp [encodeD, fieldY, hp, (nibbles_of_count hn).2.2.1]

theorem nibble4_encodeD (p : Word) {n : Nat} (hn : n < 16) (x y : Reg) :
    nibble4 (encodeD p x y n) = nibble4 p ||| BitVec.ofNat 4 n := by
  simp [encodeD, (nibbles_of_count hn).2.2.2]

theorem nibble1_encodeD (p : Word) {n : Nat} (hn : n < 16) (x y : Reg) : nibble1 (encodeD p x y n) = nibble1 p := by
  simp [encodeD, (nibbles_of_count hn).1]

theorem fieldX_encodeK {p : Word} (hp : nibble2 p = 0) (x : Reg) : fieldX (encodeK p x) = x := by
  simp [encodeK, fieldX, hp]

theorem fieldNN_encodeK (p : Word) (x : Reg) : fieldNN (encodeK p x) = fieldNN p := by
  simp [encodeK]

theorem nibble1_encodeK (p : Word) (x : Reg) : nibble1 (encodeK p x) = nibble1 p := by
  simp [encodeK]

/-! ### What a mask keeps (R74, R79) -/

theorem mask_F000 (op : Word) : op &&& 0xF000#16 = (nibble1 op).setWidth 16 <<< 12 := by
  ext i hi
  interval_cases i <;> simp [nibble1]

theorem mask_F00F (op : Word) :
    op &&& 0xF00F#16 = (nibble1 op).setWidth 16 <<< 12 ||| (nibble4 op).setWidth 16 := by
  ext i hi
  interval_cases i <;> simp [nibble1, nibble4]

theorem mask_F0FF (op : Word) :
    op &&& 0xF0FF#16 = (nibble1 op).setWidth 16 <<< 12 ||| (fieldNN op).setWidth 16 := by
  ext i hi
  interval_cases i <;> simp [nibble1, fieldNN]

/-- A word matches a pattern under 0xF000 exactly when N1 does. -/
theorem and_F000_iff {op p : Word} (hp : p &&& 0xF000#16 = p) : op &&& 0xF000#16 = p ↔ nibble1 op = nibble1 p := by
  constructor
  · rintro rfl
    ext i hi
    interval_cases i <;> simp [nibble1]
  · intro h
    rw [← hp, mask_F000, mask_F000, h]

/-- A word matches a pattern under 0xF00F exactly when N1 and N4 do. -/
theorem and_F00F_iff {op p : Word} (hp : p &&& 0xF00F#16 = p) :
    op &&& 0xF00F#16 = p ↔ nibble1 op = nibble1 p ∧ nibble4 op = nibble4 p := by
  constructor
  · rintro rfl
    constructor <;> ext i hi <;> interval_cases i <;> simp [nibble1, nibble4]
  · rintro ⟨h, h'⟩
    rw [← hp, mask_F00F, mask_F00F, h, h']

/-- A word matches a pattern under 0xF0FF exactly when N1 and the low byte do. -/
theorem and_F0FF_iff {op p : Word} (hp : p &&& 0xF0FF#16 = p) :
    op &&& 0xF0FF#16 = p ↔ nibble1 op = nibble1 p ∧ fieldNN op = fieldNN p := by
  constructor
  · rintro rfl
    constructor <;> ext i hi <;> interval_cases i <;> simp [nibble1, fieldNN]
  · rintro ⟨h, h'⟩
    rw [← hp, mask_F0FF, mask_F0FF, h, h']

/-! ### A word is its fields -/

/-- The X field of a word, in its place. -/
theorem placeX_fieldX (op : Word) : placeX (fieldX op) = (nibble2 op).setWidth 16 <<< 8 := by
  have : ∀ b : BitVec 4, placeX b.toFin = b.setWidth 16 <<< 8 := by decide
  exact this (nibble2 op)

/-- The Y field of a word, in its place. -/
theorem placeY_fieldY (op : Word) : placeY (fieldY op) = (nibble3 op).setWidth 16 <<< 4 := by
  have : ∀ b : BitVec 4, placeY b.toFin = b.setWidth 16 <<< 4 := by decide
  exact this (nibble3 op)

/-- A word is the union of its four nibbles in their places. -/
theorem word_of_nibbles (op : Word) :
    (nibble1 op).setWidth 16 <<< 12 ||| placeX (fieldX op) ||| placeY (fieldY op) ||| (nibble4 op).setWidth 16
      = op := by
  rw [placeX_fieldX, placeY_fieldY]
  ext i hi
  interval_cases i <;> simp [nibble1, nibble2, nibble3, nibble4]

/-- A word is the union of N1 and NNN in their places. -/
theorem word_of_nnn (op : Word) : (nibble1 op).setWidth 16 <<< 12 ||| (fieldNNN op).setWidth 16 = op := by
  ext i hi
  interval_cases i <;> simp [nibble1, fieldNNN]

/-- A word is the union of N1, X and NN in their places. -/
theorem word_of_x_nn (op : Word) :
    (nibble1 op).setWidth 16 <<< 12 ||| placeX (fieldX op) ||| (fieldNN op).setWidth 16 = op := by
  rw [placeX_fieldX]
  ext i hi
  interval_cases i <;> simp [nibble1, nibble2, fieldNN]

/-! ### Bytes of a word (R55) -/

/-- Splitting a word into its bytes and joining them gives it back. -/
@[simp] theorem wordOfBytes_bytes (op : Word) : wordOfBytes (highByte op) (lowByte op) = op := by
  ext i hi
  simp only [wordOfBytes, highByte, lowByte, BitVec.getElem_or, BitVec.getElem_shiftLeft, BitVec.getElem_setWidth,
    BitVec.getLsbD_extractLsb']
  by_cases h : i < 8
  · simp [h, BitVec.getLsbD_eq_getElem hi]
  · have h1 : i - 8 < 8 := by omega
    have h2 : 8 + (i - 8) = i := by omega
    simp [h, h1, h2, BitVec.getLsbD_eq_getElem hi]

/-- An unknown opcode carries the word that was decoded (R80, R93). -/
theorem decodeWith_unknown {strict : Bool} {op w : Word} (h : decodeWith strict op = .unknown w) : w = op := by
  simp only [decodeWith, decodeFamily0, decodeZeroN4, decodeFamily8, decodeFamilyE, decodeFamilyF] at h
  repeat' split at h
  all_goals first | exact (Decoded.unknown.inj h).symm | exact Decoded.noConfusion h

/-- The value of a word is 256 times its high byte plus its low byte (R55). -/
theorem wordOfBytes_toNat (hi lo : Byte) : (wordOfBytes hi lo).toNat = 256 * hi.toNat + lo.toNat := by
  have h1 := hi.isLt
  have h2 := lo.isLt
  have e : (wordOfBytes hi lo).toNat = hi.toNat <<< 8 ||| lo.toNat := by
    simp only [wordOfBytes, BitVec.toNat_or, BitVec.toNat_shiftLeft, BitVec.toNat_setWidth]
    rw [Nat.mod_eq_of_lt (a := hi.toNat) (by omega), Nat.mod_eq_of_lt (a := lo.toNat) (by omega),
      Nat.mod_eq_of_lt (by rw [Nat.shiftLeft_eq]; omega)]
  rw [e, ← Nat.shiftLeft_add_eq_or_of_lt (by omega), Nat.shiftLeft_eq]
  omega

end Sys2Proof
end

