-- ==== Sys2Proof/Laws/State.lean ====
section
/-! SUPPORT. What each update of the state leaves alone: one lemma per field and per accessor for each operation, and per
accessor for each plain field update, all true by rfl. -/

namespace Sys2Proof.Machine.State

/-! ### setV: writes the field `v` only -/

@[simp] theorem setV_i (s : State) (n : Nat) (b : Byte) : (s.setV n b).i = s.i := rfl
@[simp] theorem setV_pc (s : State) (n : Nat) (b : Byte) : (s.setV n b).pc = s.pc := rfl
@[simp] theorem setV_stack (s : State) (n : Nat) (b : Byte) : (s.setV n b).stack = s.stack := rfl
@[simp] theorem setV_mem (s : State) (n : Nat) (b : Byte) : (s.setV n b).mem = s.mem := rfl
@[simp] theorem setV_fb (s : State) (n : Nat) (b : Byte) : (s.setV n b).fb = s.fb := rfl
@[simp] theorem setV_dt (s : State) (n : Nat) (b : Byte) : (s.setV n b).dt = s.dt := rfl
@[simp] theorem setV_st (s : State) (n : Nat) (b : Byte) : (s.setV n b).st = s.st := rfl
@[simp] theorem setV_keys (s : State) (n : Nat) (b : Byte) : (s.setV n b).keys = s.keys := rfl
@[simp] theorem setV_wait (s : State) (n : Nat) (b : Byte) : (s.setV n b).wait = s.wait := rfl
@[simp] theorem setV_draws (s : State) (n : Nat) (b : Byte) : (s.setV n b).draws = s.draws := rfl
@[simp] theorem setV_readMem (s : State) (n : Nat) (b : Byte) (a : Nat) : (s.setV n b).readMem a = s.readMem a := rfl
@[simp] theorem setV_getPixel (s : State) (n : Nat) (b : Byte) (row col : Nat) : (s.setV n b).getPixel row col = s.getPixel row col := rfl
@[simp] theorem setV_key (s : State) (n : Nat) (b : Byte) (k : Nat) : (s.setV n b).key k = s.key k := rfl
@[simp] theorem setV_isClear (s : State) (n : Nat) (b : Byte) : (s.setV n b).isClear = s.isClear := rfl

/-! ### setFlag: writes the field `v` only -/

@[simp] theorem setFlag_i (s : State) (flag : Bool) : (s.setFlag flag).i = s.i := rfl
@[simp] theorem setFlag_pc (s : State) (flag : Bool) : (s.setFlag flag).pc = s.pc := rfl
@[simp] theorem setFlag_stack (s : State) (flag : Bool) : (s.setFlag flag).stack = s.stack := rfl
@[simp] theorem setFlag_mem (s : State) (flag : Bool) : (s.setFlag flag).mem = s.mem := rfl
@[simp] theorem setFlag_fb (s : State) (flag : Bool) : (s.setFlag flag).fb = s.fb := rfl
@[simp] theorem setFlag_dt (s : State) (flag : Bool) : (s.setFlag flag).dt = s.dt := rfl
@[simp] theorem setFlag_st (s : State) (flag : Bool) : (s.setFlag flag).st = s.st := rfl
@[simp] theorem setFlag_keys (s : State) (flag : Bool) : (s.setFlag flag).keys = s.keys := rfl
@[simp] theorem setFlag_wait (s : State) (flag : Bool) : (s.setFlag flag).wait = s.wait := rfl
@[simp] theorem setFlag_draws (s : State) (flag : Bool) : (s.setFlag flag).draws = s.draws := rfl
@[simp] theorem setFlag_readMem (s : State) (flag : Bool) (a : Nat) : (s.setFlag flag).readMem a = s.readMem a := rfl
@[simp] theorem setFlag_getPixel (s : State) (flag : Bool) (row col : Nat) : (s.setFlag flag).getPixel row col = s.getPixel row col := rfl
@[simp] theorem setFlag_key (s : State) (flag : Bool) (k : Nat) : (s.setFlag flag).key k = s.key k := rfl
@[simp] theorem setFlag_isClear (s : State) (flag : Bool) : (s.setFlag flag).isClear = s.isClear := rfl

/-! ### writeMem: writes the field `mem` only -/

@[simp] theorem writeMem_v (s : State) (addr : Nat) (b : Byte) : (s.writeMem addr b).v = s.v := rfl
@[simp] theorem writeMem_i (s : State) (addr : Nat) (b : Byte) : (s.writeMem addr b).i = s.i := rfl
@[simp] theorem writeMem_pc (s : State) (addr : Nat) (b : Byte) : (s.writeMem addr b).pc = s.pc := rfl
@[simp] theorem writeMem_stack (s : State) (addr : Nat) (b : Byte) : (s.writeMem addr b).stack = s.stack := rfl
@[simp] theorem writeMem_fb (s : State) (addr : Nat) (b : Byte) : (s.writeMem addr b).fb = s.fb := rfl
@[simp] theorem writeMem_dt (s : State) (addr : Nat) (b : Byte) : (s.writeMem addr b).dt = s.dt := rfl
@[simp] theorem writeMem_st (s : State) (addr : Nat) (b : Byte) : (s.writeMem addr b).st = s.st := rfl
@[simp] theorem writeMem_keys (s : State) (addr : Nat) (b : Byte) : (s.writeMem addr b).keys = s.keys := rfl
@[simp] theorem writeMem_wait (s : State) (addr : Nat) (b : Byte) : (s.writeMem addr b).wait = s.wait := rfl
@[simp] theorem writeMem_draws (s : State) (addr : Nat) (b : Byte) : (s.writeMem addr b).draws = s.draws := rfl
@[simp] theorem writeMem_getV (s : State) (addr : Nat) (b : Byte) (k : Nat) : (s.writeMem addr b).getV k = s.getV k := rfl
@[simp] theorem writeMem_getPixel (s : State) (addr : Nat) (b : Byte) (row col : Nat) : (s.writeMem addr b).getPixel row col = s.getPixel row col := rfl
@[simp] theorem writeMem_key (s : State) (addr : Nat) (b : Byte) (k : Nat) : (s.writeMem addr b).key k = s.key k := rfl
@[simp] theorem writeMem_isClear (s : State) (addr : Nat) (b : Byte) : (s.writeMem addr b).isClear = s.isClear := rfl

/-! ### setPixel: writes the field `fb` only -/

@[simp] theorem setPixel_v (s : State) (r c : Nat) (b : Bool) : (s.setPixel r c b).v = s.v := rfl
@[simp] theorem setPixel_i (s : State) (r c : Nat) (b : Bool) : (s.setPixel r c b).i = s.i := rfl
@[simp] theorem setPixel_pc (s : State) (r c : Nat) (b : Bool) : (s.setPixel r c b).pc = s.pc := rfl
@[simp] theorem setPixel_stack (s : State) (r c : Nat) (b : Bool) : (s.setPixel r c b).stack = s.stack := rfl
@[simp] theorem setPixel_mem (s : State) (r c : Nat) (b : Bool) : (s.setPixel r c b).mem = s.mem := rfl
@[simp] theorem setPixel_dt (s : State) (r c : Nat) (b : Bool) : (s.setPixel r c b).dt = s.dt := rfl
@[simp] theorem setPixel_st (s : State) (r c : Nat) (b : Bool) : (s.setPixel r c b).st = s.st := rfl
@[simp] theorem setPixel_keys (s : State) (r c : Nat) (b : Bool) : (s.setPixel r c b).keys = s.keys := rfl
@[simp] theorem setPixel_wait (s : State) (r c : Nat) (b : Bool) : (s.setPixel r c b).wait = s.wait := rfl
@[simp] theorem setPixel_draws (s : State) (r c : Nat) (b : Bool) : (s.setPixel r c b).draws = s.draws := rfl
@[simp] theorem setPixel_getV (s : State) (r c : Nat) (b : Bool) (k : Nat) : (s.setPixel r c b).getV k = s.getV k := rfl
@[simp] theorem setPixel_readMem (s : State) (r c : Nat) (b : Bool) (a : Nat) : (s.setPixel r c b).readMem a = s.readMem a := rfl
@[simp] theorem setPixel_key (s : State) (r c : Nat) (b : Bool) (k : Nat) : (s.setPixel r c b).key k = s.key k := rfl

/-! ### clearScreen: writes the field `fb` only -/

@[simp] theorem clearScreen_v (s : State) : (s.clearScreen).v = s.v := rfl
@[simp] theorem clearScreen_i (s : State) : (s.clearScreen).i = s.i := rfl
@[simp] theorem clearScreen_pc (s : State) : (s.clearScreen).pc = s.pc := rfl
@[simp] theorem clearScreen_stack (s : State) : (s.clearScreen).stack = s.stack := rfl
@[simp] theorem clearScreen_mem (s : State) : (s.clearScreen).mem = s.mem := rfl
@[simp] theorem clearScreen_dt (s : State) : (s.clearScreen).dt = s.dt := rfl
@[simp] theorem clearScreen_st (s : State) : (s.clearScreen).st = s.st := rfl
@[simp] theorem clearScreen_keys (s : State) : (s.clearScreen).keys = s.keys := rfl
@[simp] theorem clearScreen_wait (s : State) : (s.clearScreen).wait = s.wait := rfl
@[simp] theorem clearScreen_draws (s : State) : (s.clearScreen).draws = s.draws := rfl
@[simp] theorem clearScreen_getV (s : State) (k : Nat) : (s.clearScreen).getV k = s.getV k := rfl
@[simp] theorem clearScreen_readMem (s : State) (a : Nat) : (s.clearScreen).readMem a = s.readMem a := rfl
@[simp] theorem clearScreen_key (s : State) (k : Nat) : (s.clearScreen).key k = s.key k := rfl

/-! ### setKey: writes the field `keys` only -/

@[simp] theorem setKey_v (s : State) (n : Nat) (down : Bool) : (s.setKey n down).v = s.v := rfl
@[simp] theorem setKey_i (s : State) (n : Nat) (down : Bool) : (s.setKey n down).i = s.i := rfl
@[simp] theorem setKey_pc (s : State) (n : Nat) (down : Bool) : (s.setKey n down).pc = s.pc := rfl
@[simp] theorem setKey_stack (s : State) (n : Nat) (down : Bool) : (s.setKey n down).stack = s.stack := rfl
@[simp] theorem setKey_mem (s : State) (n : Nat) (down : Bool) : (s.setKey n down).mem = s.mem := rfl
@[simp] theorem setKey_fb (s : State) (n : Nat) (down : Bool) : (s.setKey n down).fb = s.fb := rfl
@[simp] theorem setKey_dt (s : State) (n : Nat) (down : Bool) : (s.setKey n down).dt = s.dt := rfl
@[simp] theorem setKey_st (s : State) (n : Nat) (down : Bool) : (s.setKey n down).st = s.st := rfl
@[simp] theorem setKey_wait (s : State) (n : Nat) (down : Bool) : (s.setKey n down).wait = s.wait := rfl
@[simp] theorem setKey_draws (s : State) (n : Nat) (down : Bool) : (s.setKey n down).draws = s.draws := rfl
@[simp] theorem setKey_getV (s : State) (n : Nat) (down : Bool) (k : Nat) : (s.setKey n down).getV k = s.getV k := rfl
@[simp] theorem setKey_readMem (s : State) (n : Nat) (down : Bool) (a : Nat) : (s.setKey n down).readMem a = s.readMem a := rfl
@[simp] theorem setKey_getPixel (s : State) (n : Nat) (down : Bool) (row col : Nat) : (s.setKey n down).getPixel row col = s.getPixel row col := rfl
@[simp] theorem setKey_isClear (s : State) (n : Nat) (down : Bool) : (s.setKey n down).isClear = s.isClear := rfl

/-! ### advance: writes the field `pc` only -/

@[simp] theorem advance_v (s : State) : (s.advance).v = s.v := rfl
@[simp] theorem advance_i (s : State) : (s.advance).i = s.i := rfl
@[simp] theorem advance_stack (s : State) : (s.advance).stack = s.stack := rfl
@[simp] theorem advance_mem (s : State) : (s.advance).mem = s.mem := rfl
@[simp] theorem advance_fb (s : State) : (s.advance).fb = s.fb := rfl
@[simp] theorem advance_dt (s : State) : (s.advance).dt = s.dt := rfl
@[simp] theorem advance_st (s : State) : (s.advance).st = s.st := rfl
@[simp] theorem advance_keys (s : State) : (s.advance).keys = s.keys := rfl
@[simp] theorem advance_wait (s : State) : (s.advance).wait = s.wait := rfl
@[simp] theorem advance_draws (s : State) : (s.advance).draws = s.draws := rfl
@[simp] theorem advance_getV (s : State) (k : Nat) : (s.advance).getV k = s.getV k := rfl
@[simp] theorem advance_readMem (s : State) (a : Nat) : (s.advance).readMem a = s.readMem a := rfl
@[simp] theorem advance_getPixel (s : State) (row col : Nat) : (s.advance).getPixel row col = s.getPixel row col := rfl
@[simp] theorem advance_key (s : State) (k : Nat) : (s.advance).key k = s.key k := rfl
@[simp] theorem advance_isClear (s : State) : (s.advance).isClear = s.isClear := rfl

/-! ### bumpIndex: writes the field `i` only -/

@[simp] theorem bumpIndex_v (s : State) (n : Nat) : (s.bumpIndex n).v = s.v := rfl
@[simp] theorem bumpIndex_pc (s : State) (n : Nat) : (s.bumpIndex n).pc = s.pc := rfl
@[simp] theorem bumpIndex_stack (s : State) (n : Nat) : (s.bumpIndex n).stack = s.stack := rfl
@[simp] theorem bumpIndex_mem (s : State) (n : Nat) : (s.bumpIndex n).mem = s.mem := rfl
@[simp] theorem bumpIndex_fb (s : State) (n : Nat) : (s.bumpIndex n).fb = s.fb := rfl
@[simp] theorem bumpIndex_dt (s : State) (n : Nat) : (s.bumpIndex n).dt = s.dt := rfl
@[simp] theorem bumpIndex_st (s : State) (n : Nat) : (s.bumpIndex n).st = s.st := rfl
@[simp] theorem bumpIndex_keys (s : State) (n : Nat) : (s.bumpIndex n).keys = s.keys := rfl
@[simp] theorem bumpIndex_wait (s : State) (n : Nat) : (s.bumpIndex n).wait = s.wait := rfl
@[simp] theorem bumpIndex_draws (s : State) (n : Nat) : (s.bumpIndex n).draws = s.draws := rfl
@[simp] theorem bumpIndex_getV (s : State) (n : Nat) (k : Nat) : (s.bumpIndex n).getV k = s.getV k := rfl
@[simp] theorem bumpIndex_readMem (s : State) (n : Nat) (a : Nat) : (s.bumpIndex n).readMem a = s.readMem a := rfl
@[simp] theorem bumpIndex_getPixel (s : State) (n : Nat) (row col : Nat) : (s.bumpIndex n).getPixel row col = s.getPixel row col := rfl
@[simp] theorem bumpIndex_key (s : State) (n : Nat) (k : Nat) : (s.bumpIndex n).key k = s.key k := rfl
@[simp] theorem bumpIndex_isClear (s : State) (n : Nat) : (s.bumpIndex n).isClear = s.isClear := rfl

/-! ### Plain field updates -/

@[simp] theorem with_i_getV (s : State) (new : Word) (k : Nat) :
    State.getV { s with i := new } k = s.getV k := rfl
@[simp] theorem with_i_readMem (s : State) (new : Word) (a : Nat) :
    State.readMem { s with i := new } a = s.readMem a := rfl
@[simp] theorem with_i_getPixel (s : State) (new : Word) (row col : Nat) :
    State.getPixel { s with i := new } row col = s.getPixel row col := rfl
@[simp] theorem with_i_key (s : State) (new : Word) (k : Nat) :
    State.key { s with i := new } k = s.key k := rfl
@[simp] theorem with_i_isClear (s : State) (new : Word) :
    State.isClear { s with i := new } = s.isClear := rfl
@[simp] theorem with_pc_getV (s : State) (new : Word) (k : Nat) :
    State.getV { s with pc := new } k = s.getV k := rfl
@[simp] theorem with_pc_readMem (s : State) (new : Word) (a : Nat) :
    State.readMem { s with pc := new } a = s.readMem a := rfl
@[simp] theorem with_pc_getPixel (s : State) (new : Word) (row col : Nat) :
    State.getPixel { s with pc := new } row col = s.getPixel row col := rfl
@[simp] theorem with_pc_key (s : State) (new : Word) (k : Nat) :
    State.key { s with pc := new } k = s.key k := rfl
@[simp] theorem with_pc_isClear (s : State) (new : Word) :
    State.isClear { s with pc := new } = s.isClear := rfl
@[simp] theorem with_stack_getV (s : State) (new : List Word) (k : Nat) :
    State.getV { s with stack := new } k = s.getV k := rfl
@[simp] theorem with_stack_readMem (s : State) (new : List Word) (a : Nat) :
    State.readMem { s with stack := new } a = s.readMem a := rfl
@[simp] theorem with_stack_getPixel (s : State) (new : List Word) (row col : Nat) :
    State.getPixel { s with stack := new } row col = s.getPixel row col := rfl
@[simp] theorem with_stack_key (s : State) (new : List Word) (k : Nat) :
    State.key { s with stack := new } k = s.key k := rfl
@[simp] theorem with_stack_isClear (s : State) (new : List Word) :
    State.isClear { s with stack := new } = s.isClear := rfl
@[simp] theorem with_dt_getV (s : State) (new : Byte) (k : Nat) :
    State.getV { s with dt := new } k = s.getV k := rfl
@[simp] theorem with_dt_readMem (s : State) (new : Byte) (a : Nat) :
    State.readMem { s with dt := new } a = s.readMem a := rfl
@[simp] theorem with_dt_getPixel (s : State) (new : Byte) (row col : Nat) :
    State.getPixel { s with dt := new } row col = s.getPixel row col := rfl
@[simp] theorem with_dt_key (s : State) (new : Byte) (k : Nat) :
    State.key { s with dt := new } k = s.key k := rfl
@[simp] theorem with_dt_isClear (s : State) (new : Byte) :
    State.isClear { s with dt := new } = s.isClear := rfl
@[simp] theorem with_st_getV (s : State) (new : Byte) (k : Nat) :
    State.getV { s with st := new } k = s.getV k := rfl
@[simp] theorem with_st_readMem (s : State) (new : Byte) (a : Nat) :
    State.readMem { s with st := new } a = s.readMem a := rfl
@[simp] theorem with_st_getPixel (s : State) (new : Byte) (row col : Nat) :
    State.getPixel { s with st := new } row col = s.getPixel row col := rfl
@[simp] theorem with_st_key (s : State) (new : Byte) (k : Nat) :
    State.key { s with st := new } k = s.key k := rfl
@[simp] theorem with_st_isClear (s : State) (new : Byte) :
    State.isClear { s with st := new } = s.isClear := rfl
@[simp] theorem with_wait_getV (s : State) (new : Wait) (k : Nat) :
    State.getV { s with wait := new } k = s.getV k := rfl
@[simp] theorem with_wait_readMem (s : State) (new : Wait) (a : Nat) :
    State.readMem { s with wait := new } a = s.readMem a := rfl
@[simp] theorem with_wait_getPixel (s : State) (new : Wait) (row col : Nat) :
    State.getPixel { s with wait := new } row col = s.getPixel row col := rfl
@[simp] theorem with_wait_key (s : State) (new : Wait) (k : Nat) :
    State.key { s with wait := new } k = s.key k := rfl
@[simp] theorem with_wait_isClear (s : State) (new : Wait) :
    State.isClear { s with wait := new } = s.isClear := rfl
@[simp] theorem with_draws_getV (s : State) (new : Nat) (k : Nat) :
    State.getV { s with draws := new } k = s.getV k := rfl
@[simp] theorem with_draws_readMem (s : State) (new : Nat) (a : Nat) :
    State.readMem { s with draws := new } a = s.readMem a := rfl
@[simp] theorem with_draws_getPixel (s : State) (new : Nat) (row col : Nat) :
    State.getPixel { s with draws := new } row col = s.getPixel row col := rfl
@[simp] theorem with_draws_key (s : State) (new : Nat) (k : Nat) :
    State.key { s with draws := new } k = s.key k := rfl
@[simp] theorem with_draws_isClear (s : State) (new : Nat) :
    State.isClear { s with draws := new } = s.isClear := rfl

/-! ### A skip -/

theorem skipIf_eq (s : State) (c : Bool) : s.skipIf c = { s with pc := if c then s.pc + 2 else s.pc } := by
  cases c <;> rfl

end Sys2Proof.Machine.State
end

