-- ==== Sys2Proof/Laws/Memory.lean ====
section
/-! SUPPORT. The memory laws (R51, R52): a write is read back and leaves every other address alone, the canonical form is
kept by every operation, and a canonical memory is determined by what it reads as. -/

namespace Sys2Proof.Machine

/-- What an address finds after a cell has been listed. -/
theorem Memory.find_list (a b : Nat) (c : Byte) (m : List Host.Cell) :
    Memory.find b (Memory.list a c m) = if a = b then some c else Memory.find b m := by
  induction m with
  | nil => simp [Memory.list, Memory.find]
  | cons cell m ih =>
    obtain ⟨k, d⟩ := cell
    by_cases h1 : a < k
    · simp [Memory.list, h1, Memory.find]
    · by_cases h2 : a = k
      · subst h2
        by_cases h3 : a = b <;> simp [Memory.list, Memory.find, h3]
      · by_cases h3 : k = b
        · subst h3
          simp [Memory.list, h1, h2, Memory.find]
        · simp [Memory.list, h1, h2, Memory.find, h3, ih]

/-- What an address finds after a cell has been taken off. -/
theorem Memory.find_unlist (a b : Nat) (m : List Host.Cell) :
    Memory.find b (Memory.unlist a m) = if a = b then none else Memory.find b m := by
  induction m with
  | nil => simp [Memory.unlist, Memory.find]
  | cons cell m ih =>
    obtain ⟨k, d⟩ := cell
    by_cases h : k = a
    · subst h
      by_cases h2 : k = b
      · subst h2
        simpa [Memory.unlist] using ih
      · simp [Memory.unlist, ih, Memory.find, h2]
    · by_cases h2 : k = b
      · subst h2
        have : ¬ a = k := fun e => h e.symm
        simp [Memory.unlist, h, Memory.find, this]
      · simp [Memory.unlist, h, ih, Memory.find, h2]

/-- Reading after a write (R51, R52). -/
theorem Memory.read_write (m : List Host.Cell) (a b : Nat) (c : Byte) :
    Memory.read (Memory.write m a c) b = if a = b ∧ b < 4096 then c else Memory.read m b := by
  by_cases hb : b < 4096
  · by_cases ha : a < 4096
    · by_cases hc : c = Memory.unlisted a
      · by_cases e : a = b
        · subst e; simp [Memory.read, Memory.write, ha, hc, Memory.find_unlist]
        · simp [Memory.read, Memory.write, ha, hc, Memory.find_unlist, e]
      · by_cases e : a = b
        · subst e; simp [Memory.read, Memory.write, ha, hc, Memory.find_list]
        · simp [Memory.read, Memory.write, ha, hc, Memory.find_list, e]
    · have e : a ≠ b := by omega
      simp [Memory.write, ha, e]
  · simp [Memory.read, hb]

/-- A read at 4096 or more gives 0 (R51). -/
theorem Memory.read_out_of_range (m : List Host.Cell) (a : Nat) (h : 4096 ≤ a) : Memory.read m a = 0 := by
  simp [Memory.read, Nat.not_lt.2 h]

/-- A write at 4096 or more does nothing (R52). -/
theorem Memory.write_out_of_range (m : List Host.Cell) (a : Nat) (c : Byte) (h : 4096 ≤ a) :
    Memory.write m a c = m := by
  simp [Memory.write, Nat.not_lt.2 h]

/-! ### The canonical form -/

theorem Memory.mem_list {a : Nat} {c : Byte} {m : List Host.Cell} {cell : Host.Cell}
    (h : cell ∈ Memory.list a c m) : cell = (a, c) ∨ cell ∈ m := by
  induction m with
  | nil => simpa [Memory.list] using h
  | cons head m ih =>
    obtain ⟨k, d⟩ := head
    simp only [Memory.list] at h
    split_ifs at h
    · simpa using h
    · rcases List.mem_cons.1 h with h | h
      · exact .inl h
      · exact .inr (List.mem_cons_of_mem _ h)
    · rcases List.mem_cons.1 h with h | h
      · exact .inr (h ▸ List.mem_cons_self)
      · exact (ih h).imp_right (List.mem_cons_of_mem _)

/-- Listing a cell keeps the addresses rising. -/
theorem Memory.rising_list {a : Nat} {c : Byte} {m : List Host.Cell}
    (h : m.Pairwise (fun p q => p.1 < q.1)) : (Memory.list a c m).Pairwise (fun p q => p.1 < q.1) := by
  induction m with
  | nil => simp [Memory.list]
  | cons head m ih =>
    obtain ⟨k, d⟩ := head
    obtain ⟨hk, hm⟩ := List.pairwise_cons.1 h
    simp only [Memory.list]
    split_ifs with h1 h2
    · refine List.pairwise_cons.2 ⟨fun q hq => ?_, h⟩
      rcases List.mem_cons.1 hq with rfl | hq
      · exact h1
      · exact Nat.lt_trans h1 (hk q hq)
    · subst h2
      exact List.pairwise_cons.2 ⟨hk, hm⟩
    · refine List.pairwise_cons.2 ⟨fun q hq => ?_, ih hm⟩
      rcases Memory.mem_list hq with rfl | hq
      · show k < a
        omega
      · exact hk q hq

/-- Taking a cell off leaves a sublist. -/
theorem Memory.unlist_sublist (a : Nat) (m : List Host.Cell) : (Memory.unlist a m).Sublist m := by
  induction m with
  | nil => exact List.Sublist.refl _
  | cons head m ih =>
    obtain ⟨k, d⟩ := head
    simp only [Memory.unlist]
    split_ifs
    · exact ih.cons _
    · exact ih.cons_cons _

/-- Every memory operation keeps the canonical form: there is one that changes memory, the write (R52). -/
theorem Memory.wf_write {m : List Host.Cell} (h : Memory.wf m) (a : Nat) (c : Byte) :
    Memory.wf (Memory.write m a c) := by
  simp only [Memory.write]
  split_ifs with ha hc
  · exact ⟨h.1.sublist (Memory.unlist_sublist a m), fun cell hcell => h.2 cell ((Memory.unlist_sublist a m).subset hcell)⟩
  · refine ⟨Memory.rising_list h.1, fun cell hcell => ?_⟩
    rcases Memory.mem_list hcell with rfl | hcell
    · exact ⟨ha, hc⟩
    · exact h.2 cell hcell
  · exact h

/-- What memory reads as after a load (R190, R192). -/
theorem Memory.read_load (buf : List Byte) (m : List Host.Cell) (addr a : Nat) :
    Memory.read (Memory.load buf addr m) a =
      if addr ≤ a ∧ a < 4096 then (buf[a - addr]?).getD (Memory.read m a) else Memory.read m a := by
  induction buf generalizing m addr with
  | nil => simp [Memory.load]
  | cons b buf ih =>
    simp only [Memory.load, ih, Memory.read_write]
    by_cases h : addr = a
    · subst h
      simp
    · by_cases h2 : addr ≤ a
      · have e : a - addr = (a - (addr + 1)) + 1 := by omega
        have h3 : addr + 1 ≤ a := by omega
        simp [h, h2, h3, e]
      · have h3 : ¬ addr + 1 ≤ a := by omega
        simp [h, h2, h3]

/-- Loading into the empty list what the addresses read as unlisted lists nothing. -/
theorem Memory.load_unlisted (buf : List Byte) (addr : Nat)
    (h : ∀ k b, buf[k]? = some b → b = Memory.unlisted (addr + k)) : Memory.load buf addr [] = [] := by
  induction buf generalizing addr with
  | nil => rfl
  | cons b buf ih =>
    have hb : b = Memory.unlisted addr := h 0 b rfl
    have e : Memory.write [] addr b = [] := by simp [Memory.write, hb, Memory.unlist]
    rw [Memory.load, e]
    refine ih (addr + 1) fun k c hk => ?_
    have := h (k + 1) c (by simpa using hk)
    rwa [show addr + 1 + k = addr + (k + 1) by omega]

/-- A load keeps the canonical form. -/
theorem Memory.wf_load (buf : List Byte) (addr : Nat) {m : List Host.Cell} (h : Memory.wf m) :
    Memory.wf (Memory.load buf addr m) := by
  induction buf generalizing m addr with
  | nil => exact h
  | cons b buf ih => exact ih _ (Memory.wf_write h addr b)

/-- The empty list is canonical. -/
theorem Memory.wf_nil : Memory.wf [] := ⟨List.Pairwise.nil, by simp⟩

/-- In a canonical memory an address finds exactly the cell listed for it. -/
theorem Memory.find_eq_some_iff {m : List Host.Cell} (h : m.Pairwise (fun p q => p.1 < q.1)) (a : Nat) (c : Byte) :
    Memory.find a m = some c ↔ (a, c) ∈ m := by
  induction m with
  | nil => simp [Memory.find]
  | cons head m ih =>
    obtain ⟨k, d⟩ := head
    obtain ⟨hk, hm⟩ := List.pairwise_cons.1 h
    by_cases e : k = a
    · subst e
      have : (k, c) ∉ m := fun hc => Nat.lt_irrefl k (hk _ hc)
      simp [Memory.find, this, eq_comm]
    · have e' : ¬ a = k := fun x => e x.symm
      simp [Memory.find, e, e', ih hm]

/-! ### The same on states -/

/-- Reading a byte after a write (R51, R52). -/
theorem State.readMem_writeMem (s : State) (a b : Nat) (c : Byte) :
    (s.writeMem a c).readMem b = if a = b ∧ b < 4096 then c else s.readMem b :=
  Memory.read_write s.mem a b c

/-- A byte read at 4096 or more is 0 (R51). -/
theorem State.readMem_out_of_range (s : State) (a : Nat) (h : 4096 ≤ a) : s.readMem a = 0 :=
  Memory.read_out_of_range s.mem a h

@[simp] theorem State.writeMem_wf (s : State) (a : Nat) (c : Byte) (h : Memory.wf s.mem) :
    Memory.wf (s.writeMem a c).mem := Memory.wf_write h a c

end Sys2Proof.Machine
end

