-- ==== Sys2Proof/Laws/Ops.lean ====
section
/-! SUPPORT. What each shared operation does to the place it writes: registers, framebuffer, key latch, stack, flags.
Memory has a file of its own, Sys2Proof/Laws/Memory.lean. -/

namespace Sys2Proof.Machine

/-! ### Registers (R20, R67) -/

/-- Reading a register after a register write. -/
theorem State.getV_setV (s : State) (i j : Nat) (b : Byte) :
    (s.setV i b).getV j = if i = j ∧ j < 16 then b else s.getV j := by
  simp only [State.getV, State.setV, Vector.getElem?_setIfInBounds]
  by_cases h : i = j
  · subst h
    by_cases hi : i < 16 <;> simp [hi]
  · simp [h]

@[simp] theorem State.getV_setV_self (s : State) (x : Reg) (b : Byte) : (s.setV x b).getV x = b := by
  simp [State.getV_setV]

@[simp] theorem State.getV_setV_ne (s : State) {i j : Nat} (h : i ≠ j) (b : Byte) :
    (s.setV i b).getV j = s.getV j := by
  simp [State.getV_setV, h]

/-- A register write at a number of 16 or more is dropped (R67). -/
theorem State.setV_out_of_range (s : State) (i : Nat) (b : Byte) (h : 16 ≤ i) : s.setV i b = s := by
  have : s.v.setIfInBounds i b = s.v := by
    apply Vector.ext
    intro j hj
    have e : i ≠ j := by omega
    simp [e]
  simp [State.setV, this]

/-- A register number of 16 or more reads as 0 (R67). -/
theorem State.getV_out_of_range (s : State) (i : Nat) (h : 16 ≤ i) : s.getV i = 0 := by
  simp [State.getV, h]

@[simp] theorem VF_val : (VF : Reg).val = 15 := rfl

@[simp] theorem State.getV_setFlag_VF (s : State) (flag : Bool) : (s.setFlag flag).getV 15 = flagByte flag := by
  simpa [State.setFlag] using State.getV_setV_self s VF (flagByte flag)

theorem State.getV_setFlag_ne (s : State) (flag : Bool) {i : Nat} (h : i ≠ 15) :
    (s.setFlag flag).getV i = s.getV i := by
  rw [State.setFlag, State.getV_setV_ne]
  simpa using (Ne.symm h)

/-- Two register numbers are equal exactly when their values are. -/
theorem Reg.val_ne {x y : Reg} (h : x ≠ y) : x.val ≠ y.val := fun e => h (Fin.ext e)

/-! ### Framebuffer (R65) -/

/-- A pixel out of range reads as false. -/
theorem State.getPixel_out_of_range (s : State) (row col : Nat) (h : ¬ (row < 32 ∧ col < 64)) :
    s.getPixel row col = false := by
  simp only [State.getPixel]
  by_cases hr : row < 32
  · have hc : ¬ col < 64 := fun hc => h ⟨hr, hc⟩
    simp [hr, hc]
  · simp [hr]

/-- Reading a pixel after a pixel write. -/
theorem State.getPixel_setPixel (s : State) (row col r c : Nat) (b : Bool) :
    (s.setPixel row col b).getPixel r c =
      if row = r ∧ col = c ∧ r < 32 ∧ c < 64 then b else s.getPixel r c := by
  simp only [State.getPixel, State.setPixel, Vector.getElem?_setIfInBounds]
  by_cases hr : r < 32
  · by_cases e : row = r
    · subst e
      simp only [hr, Vector.getElem?_eq_getElem, Option.getD_some, Option.bind_some]
      by_cases hc : c < 64
      · by_cases f : col = c
        · subst f; simp [hc]
        · simp [f, hc]
      · simp [hc]
    · simp [e]
  · by_cases e : row = r
    · subst e; simp [hr]
    · simp [e]

@[simp] theorem State.getPixel_clearScreen (s : State) (row col : Nat) : s.clearScreen.getPixel row col = false := by
  by_cases h : row < 32 ∧ col < 64
  · simp [State.getPixel, State.clearScreen, h.1, h.2]
  · exact State.getPixel_out_of_range _ _ _ h

/-- `IsClear()` says that every pixel is false (R65). -/
theorem State.isClear_iff (s : State) : s.isClear = true ↔ ∀ row col, s.getPixel row col = false := by
  simp only [State.isClear, List.all_eq_true, Bool.not_eq_true', Vector.mem_toList_iff]
  constructor
  · intro h row col
    by_cases hb : row < 32 ∧ col < 64
    · simpa [State.getPixel, hb.1, hb.2] using h s.fb[row] (by simp) s.fb[row][col] (by simp)
    · exact s.getPixel_out_of_range row col hb
  · intro h row hrow pixel hpixel
    obtain ⟨r, hr, rfl⟩ := Vector.mem_iff_getElem.1 hrow
    obtain ⟨c, hc, rfl⟩ := Vector.mem_iff_getElem.1 hpixel
    simpa [State.getPixel, hr, hc] using h r c

/-! ### Key latch (R66, R165, R166) -/

/-- A key after a latch write. -/
theorem State.key_setKey (s : State) (i j : Nat) (down : Bool) :
    (s.setKey i down).key j = if i = j ∧ j < 16 then down else s.key j := by
  simp only [State.key, State.setKey, Vector.getElem?_setIfInBounds]
  by_cases h : i = j
  · subst h
    by_cases hi : i < 16 <;> simp [hi]
  · simp [h]

/-- A key number of 16 or more is up (R66). -/
theorem State.key_out_of_range (s : State) (k : Nat) (h : 16 ≤ k) : s.key k = false := by
  simp [State.key, h]

/-! ### Call stack (R24) -/

/-- All a push can do. -/
theorem State.push_cases {cap : Option Nat} {w : Word} {s : State} :
    (s.push cap w = some { s with stack := w :: s.stack } ∧ ∀ c, cap = some c → s.stack.length < c) ∨
      (s.push cap w = none ∧ ∃ c, cap = some c ∧ c ≤ s.stack.length) := by
  cases cap with
  | none => exact .inl ⟨rfl, by simp⟩
  | some c =>
    by_cases h : s.stack.length < c
    · exact .inl ⟨by simp [State.push, h], by simpa using h⟩
    · exact .inr ⟨by simp [State.push, h], c, rfl, by omega⟩

@[simp] theorem State.push_unbounded (w : Word) (s : State) :
    s.push none w = some { s with stack := w :: s.stack } := rfl

/-- All a pop can do. -/
theorem State.pop_cases (s : State) :
    (s.stack = [] ∧ s.pop = none) ∨
      ∃ w rest, s.stack = w :: rest ∧ s.pop = some (w, { s with stack := rest }) := by
  cases h : s.stack with
  | nil => exact .inl ⟨rfl, by simp [State.pop, h]⟩
  | cons w rest => exact .inr ⟨w, rest, rfl, by simp [State.pop, h]⟩

end Sys2Proof.Machine
end

