-- ==== Sys2Proof/Laws/Frames.lean ====
section
/-! SUPPORT. Which places each shared operation leaves alone, one lemma per operation: every frame is assembled from
these. -/

namespace Sys2Proof.Machine

theorem sameAt.rfl' {p : Place} {s : State} : sameAt p s s := by
  cases p <;> rfl

theorem sameAt.trans {p : Place} {s t u : State} (h : sameAt p s t) (h' : sameAt p t u) : sameAt p s u := by
  cases p <;> exact Eq.trans h' h

theorem sameAt_setV {p : Place} (s : State) (x : Reg) (b : Byte) (h : p ≠ .reg x) : sameAt p s (s.setV x b) := by
  cases p with
  | reg r =>
    have : x.val ≠ r.val := fun e => h (by rw [Fin.ext e])
    exact State.getV_setV_ne s this b
  | _ => rfl

theorem sameAt_setFlag {p : Place} (s : State) (flag : Bool) (h : p ≠ .reg VF) : sameAt p s (s.setFlag flag) :=
  sameAt_setV s VF _ h

theorem sameAt_writeMem {p : Place} (s : State) (a : Nat) (b : Byte) (h : p ≠ .byte a) :
    sameAt p s (s.writeMem a b) := by
  cases p with
  | byte k =>
    have : a ≠ k := fun e => h (by rw [e])
    show (s.writeMem a b).readMem k = s.readMem k
    simp [State.readMem_writeMem, this]
  | _ => rfl

theorem sameAt_setPixel {p : Place} (s : State) (row col : Nat) (b : Bool) (h : p ≠ .pixel row col) :
    sameAt p s (s.setPixel row col b) := by
  cases p with
  | pixel r c =>
    have : ¬ (row = r ∧ col = c ∧ r < 32 ∧ c < 64) := fun e => h (by rw [e.1, e.2.1])
    show (s.setPixel row col b).getPixel r c = s.getPixel r c
    simp [State.getPixel_setPixel, this]
  | _ => rfl

theorem sameAt_clearScreen {p : Place} (s : State) (h : ∀ row col, p ≠ .pixel row col) :
    sameAt p s s.clearScreen := by
  cases p with
  | pixel r c => exact absurd rfl (h r c)
  | _ => rfl

theorem sameAt_setKey {p : Place} (s : State) (k : Nat) (down : Bool) (h : p ≠ .key k) :
    sameAt p s (s.setKey k down) := by
  cases p with
  | key j =>
    have : k ≠ j := fun e => h (by rw [e])
    show (s.setKey k down).key j = s.key j
    simp [State.key_setKey, this]
  | _ => rfl

theorem sameAt_pc {p : Place} (s : State) (w : Word) (h : p ≠ .pc) : sameAt p s { s with pc := w } := by
  cases p <;> first | rfl | exact absurd rfl h

theorem sameAt_i {p : Place} (s : State) (w : Word) (h : p ≠ .index) : sameAt p s { s with i := w } := by
  cases p <;> first | rfl | exact absurd rfl h

theorem sameAt_stack {p : Place} (s : State) (l : List Word) (h : p ≠ .stack) :
    sameAt p s { s with stack := l } := by
  cases p <;> first | rfl | exact absurd rfl h

theorem sameAt_dt {p : Place} (s : State) (b : Byte) (h : p ≠ .delay) : sameAt p s { s with dt := b } := by
  cases p <;> first | rfl | exact absurd rfl h

theorem sameAt_st {p : Place} (s : State) (b : Byte) (h : p ≠ .sound) : sameAt p s { s with st := b } := by
  cases p <;> first | rfl | exact absurd rfl h

theorem sameAt_wait {p : Place} (s : State) (w : Wait) (h : p ≠ .wait) : sameAt p s { s with wait := w } := by
  cases p <;> first | rfl | exact absurd rfl h

theorem sameAt_draws {p : Place} (s : State) (n : Nat) (h : p ≠ .draws) : sameAt p s { s with draws := n } := by
  cases p <;> first | rfl | exact absurd rfl h

theorem sameAt_skipIf {p : Place} (s : State) (c : Bool) (h : p ≠ .pc) : sameAt p s (s.skipIf c) := by
  rw [State.skipIf_eq]
  exact sameAt_pc s _ h

theorem sameAt_bumpIndex {p : Place} (s : State) (n : Nat) (h : p ≠ .index) : sameAt p s (s.bumpIndex n) :=
  sameAt_i s _ h

end Sys2Proof.Machine
end

