-- ==== Sys2Proof/Laws/Draw.lean ====
section
/-! SUPPORT. What the drawing loops of DXYN do (R136), pixel by pixel, and what they leave alone. -/

namespace Sys2Proof.Machine

/-! ### One bit -/

theorem sameAt_drawBit {p : Place} (row col : Nat) (bit : Bool) (s : State) (hp : p ≠ .pixel row col)
    (hv : p ≠ .reg VF) : sameAt p s (s.drawBit row col bit) := by
  unfold State.drawBit
  split_ifs
  · exact (sameAt_setPixel s row col false hp).trans (sameAt_setFlag _ true hv)
  · exact sameAt_setPixel s row col true hp
  · exact sameAt.rfl'

/-- A pixel after one bit has been drawn: exclusive or at its position, unchanged elsewhere (R137). -/
theorem State.getPixel_drawBit (row col : Nat) (bit : Bool) (s : State) (hr : row < 32) (hc : col < 64)
    (r c : Nat) : (s.drawBit row col bit).getPixel r c =
      if row = r ∧ col = c then (s.getPixel r c ^^ bit) else s.getPixel r c := by
  unfold State.drawBit
  by_cases e : row = r ∧ col = c
  · obtain ⟨rfl, rfl⟩ := e
    split_ifs with h1 h2 h2 <;> simp_all [State.getPixel_setPixel]
  · have e' : ∀ b : Bool, (s.setPixel row col b).getPixel r c = s.getPixel r c := fun b => by
      rw [State.getPixel_setPixel, if_neg (fun h => e ⟨h.1, h.2.1⟩)]
    split_ifs <;> simp [e']

/-- VF after one bit has been drawn: 1 on a collision, else as before (R137). -/
theorem State.getV_drawBit (row col : Nat) (bit : Bool) (s : State) :
    (s.drawBit row col bit).getV 15 = if (bit && s.getPixel row col) = true then 1 else s.getV 15 := by
  unfold State.drawBit
  split_ifs <;> simp_all [flagByte]

/-! ### One row -/

theorem sameAt_drawCols {p : Place} (row x0 : Nat) (byte : Byte) (left : Nat) (s : State)
    (hp : ∀ c, c < 8 → p ≠ .pixel row (x0 + c)) (hv : p ≠ .reg VF) :
    sameAt p s (State.drawCols row x0 byte left s) := by
  induction left generalizing s with
  | zero => exact sameAt.rfl'
  | succ left ih =>
    unfold State.drawCols
    dsimp only
    split_ifs
    · exact (sameAt_drawBit _ _ _ s (hp _ (by omega)) hv).trans (ih _)
    · exact sameAt.rfl'

/-- A pixel after the column offsets from `8 - left` on have been drawn (R137). -/
theorem State.getPixel_drawCols (row x0 : Nat) (byte : Byte) (left : Nat) (hl : left ≤ 8) (s : State)
    (hr : row < 32) (r c : Nat) :
    (State.drawCols row x0 byte left s).getPixel r c =
      if row = r ∧ x0 + (8 - left) ≤ c ∧ c < x0 + 8 ∧ c < 64 then (s.getPixel r c ^^ spriteBit byte (c - x0))
      else s.getPixel r c := by
  induction left generalizing s with
  | zero =>
    rw [if_neg (by omega)]
    rfl
  | succ left ih =>
    unfold State.drawCols
    dsimp only
    split_ifs with h1 h2 h2
    · rw [ih (by omega), State.getPixel_drawBit _ _ _ _ hr h1]
      by_cases e : x0 + (8 - (left + 1)) = c
      · have a : ¬ (row = r ∧ x0 + (8 - left) ≤ c ∧ c < x0 + 8 ∧ c < 64) := by omega
        have b : c - x0 = 8 - (left + 1) := by omega
        rw [if_neg a, if_pos ⟨h2.1, e⟩, b]
      · have a : row = r ∧ x0 + (8 - left) ≤ c ∧ c < x0 + 8 ∧ c < 64 := by omega
        rw [if_pos a, if_neg (fun h => e h.2)]
    · rw [ih (by omega), State.getPixel_drawBit _ _ _ _ hr h1, if_neg (by omega), if_neg (by omega)]
    · omega
    · rfl

/-- VF after the column offsets from `8 - left` on have been drawn: 1 if one of them met a set pixel (R137). -/
theorem State.getV_drawCols (row x0 : Nat) (byte : Byte) (left : Nat) (hl : left ≤ 8) (s : State) (hr : row < 32) :
    ((∃ c, 8 - left ≤ c ∧ c < 8 ∧ x0 + c < 64 ∧ s.getPixel row (x0 + c) = true ∧ spriteBit byte c = true) →
        (State.drawCols row x0 byte left s).getV 15 = 1) ∧
      ((¬ ∃ c, 8 - left ≤ c ∧ c < 8 ∧ x0 + c < 64 ∧ s.getPixel row (x0 + c) = true ∧ spriteBit byte c = true) →
        (State.drawCols row x0 byte left s).getV 15 = s.getV 15) := by
  induction left generalizing s with
  | zero =>
    refine ⟨fun ⟨c, h1, h2, _⟩ => by omega, fun _ => rfl⟩
  | succ left ih =>
    unfold State.drawCols
    dsimp only
    split_ifs with h1
    · have hi := ih (by omega) (s.drawBit row (x0 + (8 - (left + 1))) (spriteBit byte (8 - (left + 1))))
      have same : ∀ c, 8 - left ≤ c →
          (s.drawBit row (x0 + (8 - (left + 1))) (spriteBit byte (8 - (left + 1)))).getPixel row (x0 + c) =
            s.getPixel row (x0 + c) := by
        intro c hc
        rw [State.getPixel_drawBit _ _ _ _ hr h1, if_neg (by omega)]
      by_cases rest : ∃ c, 8 - left ≤ c ∧ c < 8 ∧ x0 + c < 64 ∧ s.getPixel row (x0 + c) = true ∧ spriteBit byte c = true
      · obtain ⟨c, k1, k2, k3, k4, k5⟩ := rest
        have := hi.1 ⟨c, k1, k2, k3, by rw [same c k1]; exact k4, k5⟩
        exact ⟨fun _ => this, fun h => absurd ⟨c, by omega, k2, k3, k4, k5⟩ h⟩
      · have hno := hi.2 (fun ⟨c, k1, k2, k3, k4, k5⟩ => rest ⟨c, k1, k2, k3, by rw [← same c k1]; exact k4, k5⟩)
        rw [hno, State.getV_drawBit]
        constructor
        · rintro ⟨c, k1, k2, k3, k4, k5⟩
          have hc : c = 8 - (left + 1) := by
            by_contra hne
            have hle : 8 - left ≤ c := by clear rest; omega
            exact rest ⟨c, hle, k2, k3, k4, k5⟩
          subst hc
          rw [if_pos]
          simp only [k4, k5, Bool.and_self]
        · intro h
          rw [if_neg]
          intro hb
          simp only [Bool.and_eq_true] at hb
          exact h ⟨8 - (left + 1), by omega, by omega, h1, hb.2, hb.1⟩
    · refine ⟨fun ⟨c, k1, k2, k3, _⟩ => by omega, fun _ => rfl⟩

/-- Drawing columns leaves memory and the index register alone. -/
theorem State.drawCols_reads (row x0 : Nat) (byte : Byte) (left : Nat) (s : State) :
    (State.drawCols row x0 byte left s).i = s.i ∧ (State.drawCols row x0 byte left s).mem = s.mem := by
  induction left generalizing s with
  | zero => exact ⟨rfl, rfl⟩
  | succ left ih =>
    have hb : (s.drawBit row (x0 + (8 - (left + 1))) (spriteBit byte (8 - (left + 1)))).i = s.i ∧
        (s.drawBit row (x0 + (8 - (left + 1))) (spriteBit byte (8 - (left + 1)))).mem = s.mem := by
      unfold State.drawBit
      split_ifs <;> exact ⟨rfl, rfl⟩
    unfold State.drawCols
    dsimp only
    split_ifs
    · exact ⟨(ih _).1.trans hb.1, (ih _).2.trans hb.2⟩
    · exact ⟨rfl, rfl⟩

@[simp] theorem State.drawCols_i (row x0 : Nat) (byte : Byte) (left : Nat) (s : State) :
    (State.drawCols row x0 byte left s).i = s.i := (State.drawCols_reads row x0 byte left s).1

@[simp] theorem State.drawCols_readMem (row x0 : Nat) (byte : Byte) (left : Nat) (s : State) (a : Nat) :
    (State.drawCols row x0 byte left s).readMem a = s.readMem a := by
  rw [State.readMem, (State.drawCols_reads row x0 byte left s).2, State.readMem]

/-! ### All rows -/

theorem sameAt_drawRows {p : Place} (x0 y0 n left : Nat) (s : State)
    (hp : ∀ r c, r < n → c < 8 → p ≠ .pixel (y0 + r) (x0 + c)) (hl : left ≤ n) (hv : p ≠ .reg VF) :
    sameAt p s (State.drawRows x0 y0 n left s) := by
  induction left generalizing s with
  | zero => exact sameAt.rfl'
  | succ left ih =>
    unfold State.drawRows
    dsimp only
    split_ifs
    · exact (sameAt_drawCols _ _ _ _ s (fun c hc => hp _ c (by omega) hc) hv).trans (ih _ (by omega))
    · exact sameAt.rfl'

/-- A pixel after the sprite rows from `n - left` on have been drawn (R137). -/
theorem State.getPixel_drawRows (x0 y0 n left : Nat) (hl : left ≤ n) (s : State) (row col : Nat) :
    (State.drawRows x0 y0 n left s).getPixel row col =
      if y0 + (n - left) ≤ row ∧ row < y0 + n ∧ row < 32 ∧ x0 ≤ col ∧ col < x0 + 8 ∧ col < 64 then
        (s.getPixel row col ^^ spriteBit (s.readMem (s.i.toNat + (row - y0))) (col - x0))
      else s.getPixel row col := by
  induction left generalizing s with
  | zero =>
    rw [if_neg (by omega)]
    rfl
  | succ left ih =>
    unfold State.drawRows
    dsimp only
    split_ifs with h1 h2 h2
    · rw [ih (by omega), State.getPixel_drawCols _ _ _ _ (by omega) _ h1, State.drawCols_readMem, State.drawCols_i]
      by_cases e : y0 + (n - (left + 1)) = row
      · have a : ¬ (y0 + (n - left) ≤ row ∧ row < y0 + n ∧ row < 32 ∧ x0 ≤ col ∧ col < x0 + 8 ∧ col < 64) := by omega
        have b : row - y0 = n - (left + 1) := by omega
        rw [if_neg a, if_pos (by omega), b]
        rfl
      · have a : y0 + (n - left) ≤ row ∧ row < y0 + n ∧ row < 32 ∧ x0 ≤ col ∧ col < x0 + 8 ∧ col < 64 := by omega
        rw [if_pos a, if_neg (fun h => e h.1)]
    · rw [ih (by omega), State.getPixel_drawCols _ _ _ _ (by omega) _ h1, if_neg (by omega), if_neg (by omega)]
    · omega
    · rfl

/-- VF after the sprite rows from `n - left` on have been drawn: 1 if a set bit met a set pixel (R137). -/
theorem State.getV_drawRows (x0 y0 n left : Nat) (hl : left ≤ n) (s : State) :
    ((∃ r c, n - left ≤ r ∧ r < n ∧ c < 8 ∧ y0 + r < 32 ∧ x0 + c < 64 ∧ s.getPixel (y0 + r) (x0 + c) = true ∧
          spriteBit (s.readMem (s.i.toNat + r)) c = true) →
        (State.drawRows x0 y0 n left s).getV 15 = 1) ∧
      ((¬ ∃ r c, n - left ≤ r ∧ r < n ∧ c < 8 ∧ y0 + r < 32 ∧ x0 + c < 64 ∧ s.getPixel (y0 + r) (x0 + c) = true ∧
          spriteBit (s.readMem (s.i.toNat + r)) c = true) →
        (State.drawRows x0 y0 n left s).getV 15 = s.getV 15) := by
  induction left generalizing s with
  | zero =>
    refine ⟨fun ⟨r, c, h1, h2, _⟩ => by omega, fun _ => rfl⟩
  | succ left ih =>
    have first : n - (left + 1) < n := by omega
    have later : ∀ r, n - left ≤ r → n - (left + 1) ≤ r := fun r hr => by omega
    have later' : ∀ r, n - (left + 1) ≤ r → r ≠ n - (left + 1) → n - left ≤ r := fun r hr hne => by omega
    unfold State.drawRows
    dsimp only
    split_ifs with h1
    · have same : ∀ r c, n - left ≤ r →
          (State.drawCols (y0 + (n - (left + 1))) x0 (s.readMem (s.indexAddr (n - (left + 1)))) 8 s).getPixel
            (y0 + r) (x0 + c) = s.getPixel (y0 + r) (x0 + c) := by
        intro r c hr
        rw [State.getPixel_drawCols _ _ _ _ (by omega) _ h1, if_neg (by omega)]
      have hi := ih (by omega)
        (State.drawCols (y0 + (n - (left + 1))) x0 (s.readMem (s.indexAddr (n - (left + 1)))) 8 s)
      have hrow := State.getV_drawCols (y0 + (n - (left + 1))) x0 (s.readMem (s.indexAddr (n - (left + 1)))) 8
        (by omega) s h1
      simp only [State.drawCols_readMem, State.drawCols_i] at hi
      by_cases rest : ∃ r c, n - left ≤ r ∧ r < n ∧ c < 8 ∧ y0 + r < 32 ∧ x0 + c < 64 ∧
          s.getPixel (y0 + r) (x0 + c) = true ∧ spriteBit (s.readMem (s.i.toNat + r)) c = true
      · obtain ⟨r, c, k1, k2, k3, k4, k5, k6, k7⟩ := rest
        have := hi.1 ⟨r, c, k1, k2, k3, k4, k5, by rw [same r c k1]; exact k6, k7⟩
        exact ⟨fun _ => this, fun h => absurd ⟨r, c, later r k1, k2, k3, k4, k5, k6, k7⟩ h⟩
      · have hno := hi.2 (fun ⟨r, c, k1, k2, k3, k4, k5, k6, k7⟩ =>
          rest ⟨r, c, k1, k2, k3, k4, k5, by rw [← same r c k1]; exact k6, k7⟩)
        constructor
        · rintro ⟨r, c, k1, k2, k3, k4, k5, k6, k7⟩
          have hr : r = n - (left + 1) := by
            by_contra hne
            exact rest ⟨r, c, later' r k1 hne, k2, k3, k4, k5, k6, k7⟩
          subst hr
          exact hno.trans (hrow.1 ⟨c, Nat.zero_le c, k3, k5, k6, k7⟩)
        · intro h
          exact hno.trans (hrow.2 fun ⟨c, _, k2, k3, k4, k5⟩ =>
            h ⟨n - (left + 1), c, Nat.le_refl _, first, k2, h1, k3, k4, k5⟩)
    · refine ⟨fun ⟨r, c, k1, k2, k3, k4, _⟩ => by omega, fun _ => rfl⟩

/-- Drawing leaves memory alone. -/
theorem State.drawRows_mem (x0 y0 n left : Nat) (s : State) : (State.drawRows x0 y0 n left s).mem = s.mem := by
  induction left generalizing s with
  | zero => rfl
  | succ left ih =>
    unfold State.drawRows
    dsimp only
    split_ifs
    · exact (ih _).trans (State.drawCols_reads _ _ _ _ _).2
    · rfl

end Sys2Proof.Machine
end

