-- ==== Sys2Proof/Laws/HostOps.lean ====
section
/-! SUPPORT. What each host operation can do (R163 to R167, R192): the cases of a key-down and a cancel by wait state, the
ticks, and what memory reads as after a load. -/

namespace Sys2Proof.Machine

/-- A latch write at a key number of 16 or more is dropped (D19). -/
theorem State.setKey_out_of_range (s : State) (k : Nat) (down : Bool) (h : 16 ≤ k) : s.setKey k down = s := by
  have : s.keys.setIfInBounds k down = s.keys := by
    apply Vector.ext
    intro j hj
    have e : k ≠ j := by omega
    simp [e]
  simp [State.setKey, this]

/-- Latch writes commute, unless they write one key differently. -/
theorem State.setKey_comm (s : State) (j k : Nat) (a b : Bool) (h : j ≠ k ∨ a = b) :
    (s.setKey j a).setKey k b = (s.setKey k b).setKey j a := by
  have : (s.keys.setIfInBounds j a).setIfInBounds k b = (s.keys.setIfInBounds k b).setIfInBounds j a := by
    apply Vector.ext
    intro i hi
    simp only [Vector.getElem_setIfInBounds]
    rcases h with h | rfl <;> split <;> split <;> simp_all
  simp [State.setKey, this]

/-- A key-down outside a wait sets the latch (R165). -/
theorem State.keyDown_run {s : State} {k : Nat} (h : s.wait = .run) : s.keyDown k = s.setKey k true := by
  by_cases hk : k < 16
  · simp [State.keyDown, hk, h]
  · simp [State.keyDown, hk, State.setKey_out_of_range s k true (by omega)]

/-- A key-down during a wait sets the latch, writes the register and ends the wait (R148, R165). -/
theorem State.keyDown_waiting {s : State} {x : Reg} {k : Nat} (h : s.wait = .waitKey x) (hk : k < 16) :
    s.keyDown k = { (s.setKey k true).setV x (BitVec.ofNat 8 k) with wait := .run } := by
  simp [State.keyDown, hk, h]

/-- A key-down of a key number of 16 or more is ignored (D19). -/
theorem State.keyDown_out_of_range (s : State) {k : Nat} (h : 16 ≤ k) : s.keyDown k = s := by
  simp [State.keyDown, Nat.not_lt.2 h]

/-- A cancel outside a wait does nothing (R167). -/
theorem State.cancel_run {s : State} (h : s.wait = .run) : s.cancel = s := by
  simp [State.cancel, h]

/-- A cancel during a wait ends it (R167). -/
theorem State.cancel_waiting {s : State} {x : Reg} (h : s.wait = .waitKey x) :
    s.cancel = { s with wait := .run } := by
  simp [State.cancel, h]

/-- A tick counts down to 0 (R27, R163, R164). -/
theorem tick_toNat : ∀ timer : Byte, (tick timer).toNat = timer.toNat - 1 := by decide

/-- What memory reads as after a load (R192). -/
theorem State.readMem_load (buf : List Byte) (s : State) (addr a : Nat) :
    (State.load buf addr s).readMem a =
      if addr ≤ a ∧ a < 4096 then (buf[a - addr]?).getD (s.readMem a) else s.readMem a :=
  Memory.read_load buf s.mem addr a

/-- A load leaves every place but bytes of memory alone (R192). -/
theorem sameAt_load {p : Place} (buf : List Byte) (addr : Nat) (s : State) (h : ∀ a, p ≠ .byte a) :
    sameAt p s (State.load buf addr s) := by
  cases p with
  | byte a => exact absurd rfl (h a)
  | _ => rfl

@[simp] theorem State.load_wait (buf : List Byte) (addr : Nat) (s : State) :
    (State.load buf addr s).wait = s.wait := rfl

/-- A load keeps the canonical form of memory. -/
theorem State.load_wf (buf : List Byte) (addr : Nat) (s : State) (h : Memory.wf s.mem) :
    Memory.wf (State.load buf addr s).mem := Memory.wf_load buf addr h

end Sys2Proof.Machine
end

