-- ==== Sys2Proof/Laws/PerInstr.lean ====
section
/-! SUPPORT. A fact of every instruction, one lemma per constructor: the encoder's word is selected by a row of the opcode
map that builds the instruction back from it (R74, R86), under either value of STRICT_DECODE. -/

namespace Sys2Proof.Laws

/-- `X << 8` has no bit under the masks of the opcode map (R74, R79). -/
@[simp] theorem placeX_and (x : Reg) :
    placeX x &&& 0xF000#16 = 0 ∧ placeX x &&& 0xF00F#16 = 0 ∧ placeX x &&& 0xF0FF#16 = 0 := by
  revert x; decide

/-- `Y << 4` has no bit under the masks of the rows that hold a Y field. -/
@[simp] theorem placeY_and (y : Reg) : placeY y &&& 0xF000#16 = 0 ∧ placeY y &&& 0xF00F#16 = 0 := by
  revert y; decide

/-- A widened NN has no bit under its row's mask. -/
theorem nn_and (nn : Byte) : nn.setWidth 16 &&& 0xF000#16 = 0 := by
  ext i hi
  by_cases h : i < 8
  · have : i = 0 ∨ i = 1 ∨ i = 2 ∨ i = 3 ∨ i = 4 ∨ i = 5 ∨ i = 6 ∨ i = 7 := by omega
    rcases this with rfl | rfl | rfl | rfl | rfl | rfl | rfl | rfl <;> simp
  · simp [BitVec.getElem_setWidth, BitVec.getLsbD_of_ge nn i (by omega)]

/-- A widened NNN has no bit under its row's mask. -/
theorem nnn_and (nnn : Addr12) : nnn.setWidth 16 &&& 0xF000#16 = 0 := by
  ext i hi
  by_cases h : i < 12
  · interval_cases i <;> simp
  · simp [BitVec.getElem_setWidth, BitVec.getLsbD_of_ge nnn i (by omega)]

/-- A count below 16 has no bit under its row's mask. -/
theorem count_and {n : Nat} (h : n < 16) : BitVec.ofNat 16 n &&& 0xF000#16 = 0 := by
  interval_cases n <;> decide

namespace EncodeSelected

/-- The encoder's word of a well-formed instruction is selected by a row of the opcode map, whose `build` gives the
instruction back. -/
def Statement (i : Instr) : Prop :=
  i.wellFormed = true →
    ∃ row ∈ opcodeTable, row.build (encode i) = i ∧ ∀ strict, row.selects strict (encode i) = true

/-! ### One lemma per format (R72) -/

theorem formatA {k : Nat} {row : OpcodeRow} (hrow : opcodeTable[k]? = some row) (nnn : Addr12) (i : Instr)
    (hb : row.build (encode i) = i) (he : encode i = encodeA row.pattern nnn)
    (hm : ∀ strict, row.mask strict = 0xF000#16) (hp : row.pattern &&& 0xF000#16 = row.pattern) : Statement i :=
  fun _ => ⟨row, List.mem_of_getElem? hrow, hb, fun strict => by
    simp [OpcodeRow.selects, hm, he, encodeA, BitVec.and_or_distrib_right, nnn_and, hp]⟩

theorem formatI {k : Nat} {row : OpcodeRow} (hrow : opcodeTable[k]? = some row) (x : Reg) (nn : Byte) (i : Instr)
    (hb : row.build (encode i) = i) (he : encode i = encodeI row.pattern x nn)
    (hm : ∀ strict, row.mask strict = 0xF000#16) (hp : row.pattern &&& 0xF000#16 = row.pattern) : Statement i :=
  fun _ => ⟨row, List.mem_of_getElem? hrow, hb, fun strict => by
    simp [OpcodeRow.selects, hm, he, encodeI, BitVec.and_or_distrib_right, nn_and, hp]⟩

theorem formatR {k : Nat} {row : OpcodeRow} (hrow : opcodeTable[k]? = some row) (x y : Reg) (i : Instr)
    (hb : row.build (encode i) = i) (he : encode i = encodeD row.pattern x y 0)
    (hm : ∀ strict, row.mask strict = 0xF00F#16 ∨ row.mask strict = 0xF000#16)
    (hp : row.pattern &&& 0xF00F#16 = row.pattern) (hp' : row.mask false = 0xF000#16 → row.pattern &&& 0xF000#16 = row.pattern)
    (hs : row.mask true = 0xF00F#16) : Statement i :=
  fun _ => ⟨row, List.mem_of_getElem? hrow, hb, fun strict => by
    cases strict
    · rcases hm false with h | h
      · simp [OpcodeRow.selects, h, he, encodeD, BitVec.and_or_distrib_right, hp]
      · simp [OpcodeRow.selects, h, he, encodeD, BitVec.and_or_distrib_right, hp' h]
    · simp [OpcodeRow.selects, hs, he, encodeD, BitVec.and_or_distrib_right, hp]⟩

theorem formatK {k : Nat} {row : OpcodeRow} (hrow : opcodeTable[k]? = some row) (x : Reg) (i : Instr)
    (hb : row.build (encode i) = i) (he : encode i = encodeK row.pattern x)
    (hm : ∀ strict, row.mask strict = 0xF0FF#16) (hp : row.pattern &&& 0xF0FF#16 = row.pattern) : Statement i :=
  fun _ => ⟨row, List.mem_of_getElem? hrow, hb, fun strict => by
    simp [OpcodeRow.selects, hm, he, encodeK, BitVec.and_or_distrib_right, hp]⟩

/-! ### One lemma per constructor -/

theorem cls : Statement (.cls) :=
  fun _ => ⟨_, List.mem_of_getElem? (i := 0) rfl, rfl, by decide⟩

theorem ret : Statement (.ret) :=
  fun _ => ⟨_, List.mem_of_getElem? (i := 1) rfl, rfl, by decide⟩

theorem jp (nnn : Addr12) : Statement (.jp nnn) :=
  formatA (k := 2) rfl nnn _ (congrArg _ (fieldNNN_encodeA rfl nnn)) rfl (by decide) rfl

theorem call (nnn : Addr12) : Statement (.call nnn) :=
  formatA (k := 3) rfl nnn _ (congrArg _ (fieldNNN_encodeA rfl nnn)) rfl (by decide) rfl

theorem seImm (x : Reg) (nn : Byte) : Statement (.seImm x nn) :=
  formatI (k := 4) rfl x nn _ (congrArg₂ _ (fieldX_encodeI rfl x nn) (fieldNN_encodeI rfl x nn)) rfl (by decide) rfl

theorem sneImm (x : Reg) (nn : Byte) : Statement (.sneImm x nn) :=
  formatI (k := 5) rfl x nn _ (congrArg₂ _ (fieldX_encodeI rfl x nn) (fieldNN_encodeI rfl x nn)) rfl (by decide) rfl

theorem seReg (x y : Reg) : Statement (.seReg x y) :=
  formatR (k := 6) rfl x y _ (congrArg₂ _ (fieldX_encodeD rfl (by decide) x y) (fieldY_encodeD rfl (by decide) x y)) rfl (by decide) rfl (by decide) rfl

theorem ldImm (x : Reg) (nn : Byte) : Statement (.ldImm x nn) :=
  formatI (k := 7) rfl x nn _ (congrArg₂ _ (fieldX_encodeI rfl x nn) (fieldNN_encodeI rfl x nn)) rfl (by decide) rfl

theorem addImm (x : Reg) (nn : Byte) : Statement (.addImm x nn) :=
  formatI (k := 8) rfl x nn _ (congrArg₂ _ (fieldX_encodeI rfl x nn) (fieldNN_encodeI rfl x nn)) rfl (by decide) rfl

theorem ldReg (x y : Reg) : Statement (.ldReg x y) :=
  formatR (k := 9) rfl x y _ (congrArg₂ _ (fieldX_encodeD rfl (by decide) x y) (fieldY_encodeD rfl (by decide) x y)) rfl (by decide) rfl (by decide) rfl

theorem orReg (x y : Reg) : Statement (.orReg x y) :=
  formatR (k := 10) rfl x y _ (congrArg₂ _ (fieldX_encodeD rfl (by decide) x y) (fieldY_encodeD rfl (by decide) x y)) rfl (by decide) rfl (by decide) rfl

theorem andReg (x y : Reg) : Statement (.andReg x y) :=
  formatR (k := 11) rfl x y _ (congrArg₂ _ (fieldX_encodeD rfl (by decide) x y) (fieldY_encodeD rfl (by decide) x y)) rfl (by decide) rfl (by decide) rfl

theorem xorReg (x y : Reg) : Statement (.xorReg x y) :=
  formatR (k := 12) rfl x y _ (congrArg₂ _ (fieldX_encodeD rfl (by decide) x y) (fieldY_encodeD rfl (by decide) x y)) rfl (by decide) rfl (by decide) rfl

theorem addReg (x y : Reg) : Statement (.addReg x y) :=
  formatR (k := 13) rfl x y _ (congrArg₂ _ (fieldX_encodeD rfl (by decide) x y) (fieldY_encodeD rfl (by decide) x y)) rfl (by decide) rfl (by decide) rfl

theorem sub (x y : Reg) : Statement (.sub x y) :=
  formatR (k := 14) rfl x y _ (congrArg₂ _ (fieldX_encodeD rfl (by decide) x y) (fieldY_encodeD rfl (by decide) x y)) rfl (by decide) rfl (by decide) rfl

theorem shr (x y : Reg) : Statement (.shr x y) :=
  formatR (k := 15) rfl x y _ (congrArg₂ _ (fieldX_encodeD rfl (by decide) x y) (fieldY_encodeD rfl (by decide) x y)) rfl (by decide) rfl (by decide) rfl

theorem subn (x y : Reg) : Statement (.subn x y) :=
  formatR (k := 16) rfl x y _ (congrArg₂ _ (fieldX_encodeD rfl (by decide) x y) (fieldY_encodeD rfl (by decide) x y)) rfl (by decide) rfl (by decide) rfl

theorem shl (x y : Reg) : Statement (.shl x y) :=
  formatR (k := 17) rfl x y _ (congrArg₂ _ (fieldX_encodeD rfl (by decide) x y) (fieldY_encodeD rfl (by decide) x y)) rfl (by decide) rfl (by decide) rfl

theorem sneReg (x y : Reg) : Statement (.sneReg x y) :=
  formatR (k := 18) rfl x y _ (congrArg₂ _ (fieldX_encodeD rfl (by decide) x y) (fieldY_encodeD rfl (by decide) x y)) rfl (by decide) rfl (by decide) rfl

theorem ldI (nnn : Addr12) : Statement (.ldI nnn) :=
  formatA (k := 19) rfl nnn _ (congrArg _ (fieldNNN_encodeA rfl nnn)) rfl (by decide) rfl

theorem jpV0 (nnn : Addr12) : Statement (.jpV0 nnn) :=
  formatA (k := 20) rfl nnn _ (congrArg _ (fieldNNN_encodeA rfl nnn)) rfl (by decide) rfl

theorem rnd (x : Reg) (nn : Byte) : Statement (.rnd x nn) :=
  formatI (k := 21) rfl x nn _ (congrArg₂ _ (fieldX_encodeI rfl x nn) (fieldNN_encodeI rfl x nn)) rfl (by decide) rfl

theorem drw (x y : Reg) (n : Nat) : Statement (.drw x y n) :=
  fun h => ⟨_, List.mem_of_getElem? (i := 22) rfl, by
    have hn : n < 16 := by simpa [Instr.wellFormed] using h
    have e : fieldN (encodeD 0xD000 x y n) = n := by
      rw [fieldN, nibble4_encodeD _ hn, show nibble4 0xD000 = 0 from rfl]
      simp [Nat.mod_eq_of_lt hn]
    show Instr.drw (fieldX (encodeD _ x y n)) (fieldY (encodeD _ x y n)) (fieldN (encodeD _ x y n)) = _
    rw [fieldX_encodeD rfl hn, fieldY_encodeD rfl hn, e], by
    have hn : n < 16 := by simpa [Instr.wellFormed] using h
    intro strict
    cases strict <;>
      simp [OpcodeRow.selects, OpcodeRow.mask, encode, encodeD, BitVec.and_or_distrib_right, count_and hn]⟩

theorem skp (x : Reg) : Statement (.skp x) :=
  formatK (k := 23) rfl x _ (congrArg _ (fieldX_encodeK rfl x)) rfl (by decide) rfl

theorem sknp (x : Reg) : Statement (.sknp x) :=
  formatK (k := 24) rfl x _ (congrArg _ (fieldX_encodeK rfl x)) rfl (by decide) rfl

theorem ldVxDt (x : Reg) : Statement (.ldVxDt x) :=
  formatK (k := 25) rfl x _ (congrArg _ (fieldX_encodeK rfl x)) rfl (by decide) rfl

theorem ldVxK (x : Reg) : Statement (.ldVxK x) :=
  formatK (k := 26) rfl x _ (congrArg _ (fieldX_encodeK rfl x)) rfl (by decide) rfl

theorem ldDtVx (x : Reg) : Statement (.ldDtVx x) :=
  formatK (k := 27) rfl x _ (congrArg _ (fieldX_encodeK rfl x)) rfl (by decide) rfl

theorem ldStVx (x : Reg) : Statement (.ldStVx x) :=
  formatK (k := 28) rfl x _ (congrArg _ (fieldX_encodeK rfl x)) rfl (by decide) rfl

theorem addI (x : Reg) : Statement (.addI x) :=
  formatK (k := 29) rfl x _ (congrArg _ (fieldX_encodeK rfl x)) rfl (by decide) rfl

theorem ldF (x : Reg) : Statement (.ldF x) :=
  formatK (k := 30) rfl x _ (congrArg _ (fieldX_encodeK rfl x)) rfl (by decide) rfl

theorem ldB (x : Reg) : Statement (.ldB x) :=
  formatK (k := 31) rfl x _ (congrArg _ (fieldX_encodeK rfl x)) rfl (by decide) rfl

theorem stRegs (x : Reg) : Statement (.stRegs x) :=
  formatK (k := 32) rfl x _ (congrArg _ (fieldX_encodeK rfl x)) rfl (by decide) rfl

theorem ldRegs (x : Reg) : Statement (.ldRegs x) :=
  formatK (k := 33) rfl x _ (congrArg _ (fieldX_encodeK rfl x)) rfl (by decide) rfl

end EncodeSelected

end Sys2Proof.Laws
end

