-- ==== Sys2Proof/Laws/Step.lean ====
section
/-! SUPPORT. All a step can do, said once (R90) for every parameter setting, how the decoded instruction and its result go
with it, and what memory reads as after reset. -/

namespace Sys2Proof.Machine

/-- STACK_CAP reaches 2NNN alone: every other handler is the one of `exec`, under every parameter setting. -/
theorem execWith_of_ne {p : Params} {i : Instr} (h : ∀ nnn, i ≠ .call nnn) (s : State) : execWith p i s = exec i s := by
  cases i <;> first | rfl | exact absurd rfl (h _)

@[simp] theorem execWith_call (p : Params) (nnn : Addr12) (s : State) :
    execWith p (.call nnn) s = callWith p.stackCap nnn s := rfl

/-- At the parameters of this model the handlers are those of `exec`. -/
@[simp] theorem execWith_params (i : Instr) (s : State) : execWith params i s = exec i s := by
  cases i <;> rfl

/-- All a call can do, under every STACK_CAP (R102). -/
theorem callWith_cases (cap : Option Nat) (nnn : Addr12) (s : State) :
    (nnn.toNat % 2 = 0 ∧ (∀ c, cap = some c → s.stack.length < c) ∧
      callWith cap nnn s = .next { s with pc := zextAddr nnn, stack := s.pc :: s.stack }) ∨
    (nnn.toNat % 2 = 0 ∧ (∃ c, cap = some c ∧ c ≤ s.stack.length) ∧ callWith cap nnn s = .fault .stackFull) ∨
    (nnn.toNat % 2 = 1 ∧ callWith cap nnn s = .next s) := by
  by_cases h : nnn.toNat % 2 = 0
  · rcases State.push_cases (cap := cap) (w := s.pc) (s := s) with ⟨e, hc⟩ | ⟨e, hc⟩
    · exact .inl ⟨h, hc, by simp [callWith, h, e]⟩
    · exact .inr (.inl ⟨h, hc, by simp [callWith, h, e]⟩)
  · exact .inr (.inr ⟨by omega, by simp [callWith, h]⟩)

/-- All a step can do, under every parameter setting: nothing while waiting, the advance on an unknown opcode, one handler
otherwise. -/
theorem stepWith_cases (p : Params) (s : State) :
    (∃ x, s.wait = .waitKey x ∧ stepWith p s = .next s ∧ stepResultWith p s = .blocked) ∨
    (s.wait = .run ∧ ∃ op, s.decodedWith p = .unknown op ∧ stepWith p s = .next s.advance ∧
      stepResultWith p s = .unknown op) ∨
    (s.wait = .run ∧ ∃ i, s.decodedWith p = .instr i ∧ stepWith p s = execWith p i s.advance ∧
      stepResultWith p s = if suspends i then .blocked else .done) := by
  cases hw : s.wait with
  | waitKey x => exact .inl ⟨x, rfl, by simp [stepWith, cycleWith, hw], by simp [stepResultWith, hw]⟩
  | run =>
    cases hd : s.decodedWith p with
    | unknown op =>
      exact .inr (.inl ⟨rfl, op, rfl, by simp [stepWith, cycleWith, hw, hd], by simp [stepResultWith, hw, hd]⟩)
    | instr i =>
      exact .inr (.inr ⟨rfl, i, rfl, by simp [stepWith, cycleWith, hw, hd], by simp [stepResultWith, hw, hd]⟩)

/-- All a step of this model can do. -/
theorem step_cases (s : State) :
    (∃ x, s.wait = .waitKey x ∧ step s = .next s ∧ stepResult s = .blocked) ∨
    (s.wait = .run ∧ ∃ op, s.decoded = .unknown op ∧ step s = .next s.advance ∧ stepResult s = .unknown op) ∨
    (s.wait = .run ∧ ∃ i, s.decoded = .instr i ∧ step s = exec i s.advance ∧
      stepResult s = if suspends i then .blocked else .done) := by
  have h := stepWith_cases params s
  simp only [execWith_params] at h
  exact h

/-- FX0A alone suspends the machine (R148). -/
theorem suspends_iff (i : Instr) : suspends i = true ↔ ∃ x, i = .ldVxK x := by
  cases i <;> simp [suspends]

/-- Memory after reset, for every FONT (R35, R36). -/
theorem State.resetWith_readMem (p : Params) (a : Nat) (h : a < 4096) :
    (State.resetWith p).readMem a = if 0x050 ≤ a then (p.font[a - 0x050]?).getD 0 else 0 := by
  show Memory.read (Memory.load p.font.toList 0x050 []) a = _
  have key := Memory.read_load p.font.toList [] 0x050 a
  by_cases h1 : 0x050 ≤ a
  · by_cases h2 : a - 0x050 < 80
    · simpa [h, h1, h2] using key
    · have e : Memory.read [] a = 0 := by
        have : ¬ a < 0x0A0 := by omega
        simp [Memory.read, Memory.find, Memory.unlisted, h, this]
      simpa [h, h1, h2, e] using key
  · have e : Memory.read [] a = 0 := by simp [Memory.read, Memory.find, Memory.unlisted, h, h1]
    simpa [h1, e] using key

/-- The reset state of this model is `State.resetWith` at its parameters (log 7): the default FONT leaves nothing listed. -/
theorem State.reset_eq : State.reset = State.resetWith params := by
  have h : Memory.load params.font.toList 0x050 [] = [] := by
    apply Memory.load_unlisted
    intro k b hk
    have hk' : k < 80 := by
      have := (List.getElem?_eq_some_iff.1 hk).1
      simpa using this
    have h2 : 0x050 + k < 0x0A0 := by omega
    have hb : fontTable[k] = b := by simpa [hk', params] using hk
    simp [Memory.unlisted, hk', hb]
    omega
  rw [State.resetWith, h, State.reset]

end Sys2Proof.Machine
end

