-- ==== Sys2Proof/Laws/Transfer.lean ====
section
/-! SUPPORT. What the block transfers of FX55 and FX65 do (R129 to R131): the bytes stored, the registers loaded, and what
stays. -/

namespace Sys2Proof.Machine

/-- Storing registers leaves every place alone but the bytes stored. -/
theorem sameAt_storeRegs {p : Place} (base n : Nat) (s : State) (h : ∀ k, k < n → p ≠ .byte (base + k)) :
    sameAt p s (State.storeRegs base n s) := by
  induction n with
  | zero => exact sameAt.rfl'
  | succ n ih =>
    exact (ih fun k hk => h k (by omega)).trans (sameAt_writeMem _ _ _ (h n (by omega)))

@[simp] theorem State.storeRegs_getV (base n : Nat) (s : State) (j : Nat) :
    (State.storeRegs base n s).getV j = s.getV j := by
  induction n with
  | zero => rfl
  | succ n ih => simpa [State.storeRegs] using ih

@[simp] theorem State.storeRegs_i (base n : Nat) (s : State) : (State.storeRegs base n s).i = s.i := by
  induction n with
  | zero => rfl
  | succ n ih => simpa [State.storeRegs] using ih

/-- A byte after V0 to V(n-1) have been stored from `base`. -/
theorem State.readMem_storeRegs (base n : Nat) (s : State) (a : Nat) :
    (State.storeRegs base n s).readMem a =
      if base ≤ a ∧ a < base + n ∧ a < 4096 then s.getV (a - base) else s.readMem a := by
  induction n with
  | zero =>
    have : ¬ (base ≤ a ∧ a < base + 0 ∧ a < 4096) := by omega
    rw [if_neg this]
    rfl
  | succ n ih =>
    show ((State.storeRegs base n s).writeMem (base + n) ((State.storeRegs base n s).getV n)).readMem a = _
    rw [State.readMem_writeMem, State.storeRegs_getV, ih]
    by_cases e : base + n = a
    · subst e
      by_cases hb : base + n < 4096
      · have h2 : base ≤ base + n ∧ base + n < base + (n + 1) ∧ base + n < 4096 := ⟨by omega, by omega, hb⟩
        rw [if_pos ⟨rfl, hb⟩, if_pos h2, Nat.add_sub_cancel_left]
      · rw [if_neg (by omega), if_neg (by omega), if_neg (by omega)]
    · rw [if_neg (fun h => e h.1)]
      by_cases h3 : base ≤ a ∧ a < base + n ∧ a < 4096
      · rw [if_pos h3, if_pos ⟨h3.1, by omega, h3.2.2⟩]
      · rw [if_neg h3, if_neg (by omega)]

/-- Storing registers keeps memory canonical. -/
theorem State.storeRegs_wf (base n : Nat) (s : State) (h : Memory.wf s.mem) :
    Memory.wf (State.storeRegs base n s).mem := by
  induction n with
  | zero => exact h
  | succ n ih => exact State.writeMem_wf _ _ _ ih

/-- Loading registers leaves every place alone but the registers loaded. -/
theorem sameAt_loadRegs {p : Place} (base n : Nat) (s : State) (hn : n ≤ 16)
    (h : ∀ r : Reg, r.val < n → p ≠ .reg r) : sameAt p s (State.loadRegs base n s) := by
  induction n with
  | zero => exact sameAt.rfl'
  | succ n ih =>
    exact (ih (by omega) fun r hr => h r (by omega)).trans
      (sameAt_setV _ (⟨n, by omega⟩ : Reg) _ (h ⟨n, by omega⟩ (by simp)))

@[simp] theorem State.loadRegs_readMem (base n : Nat) (s : State) (a : Nat) :
    (State.loadRegs base n s).readMem a = s.readMem a := by
  induction n with
  | zero => rfl
  | succ n ih => simpa [State.loadRegs] using ih

@[simp] theorem State.loadRegs_mem (base n : Nat) (s : State) : (State.loadRegs base n s).mem = s.mem := by
  induction n with
  | zero => rfl
  | succ n ih => simpa [State.loadRegs] using ih

@[simp] theorem State.loadRegs_i (base n : Nat) (s : State) : (State.loadRegs base n s).i = s.i := by
  induction n with
  | zero => rfl
  | succ n ih => simpa [State.loadRegs] using ih

/-- A register after V0 to V(n-1) have been loaded from `base`. -/
theorem State.getV_loadRegs (base n : Nat) (s : State) (j : Nat) :
    (State.loadRegs base n s).getV j = if j < n ∧ j < 16 then s.readMem (base + j) else s.getV j := by
  induction n with
  | zero => simp [State.loadRegs]
  | succ n ih =>
    show ((State.loadRegs base n s).setV n ((State.loadRegs base n s).readMem (base + n))).getV j = _
    rw [State.getV_setV, State.loadRegs_readMem, ih]
    by_cases e : n = j
    · subst e
      by_cases hj : n < 16 <;> simp [hj]
    · have h2 : j < n + 1 ↔ j < n := by omega
      simp [e, h2]

end Sys2Proof.Machine
end

