-- ==== Sys2Proof/Tests/Slice0.lean ====
section
/-! SUPPORT. The model's own tests. Words are written out bit by bit from the fields of R71 and the patterns of R74;
expected results are the vectors of spec/95_test_vectors.md, each named at its test. After them, for every statement with
hypotheses, a witness that meets them, clause by clause, at the ends of their ranges. -/

namespace Sys2Proof.Tests

open Sys2Proof.Machine

/-! ### Small states -/

/-- The reset state after some host operations. -/
def setup (ops : List HostOp) : State := ops.foldl State.host State.reset

/-- Whether one step on an opcode from a state answers a state that passes a check. -/
def ends (s : State) (op : Nat) (check : State → Bool) : Bool :=
  match step (s.withFetchWord 16 op) with
  | .next t => check t
  | .fault _ => false
  | .refused _ => false

/-- The machine waiting for a key. -/
def waiting (x : Reg) : State := { State.reset with wait := .waitKey x }

/-- The reset state with a given PC. -/
def atPc (pc : Word) : State := { State.reset with pc := pc }

/-! ### WellFormed (R86) -/

theorem test_wellFormed_refuses_sixteen_rows : Instr.wellFormed (.drw 1 2 16) = false := by decide
theorem test_wellFormed_takes_fifteen_rows : Instr.wellFormed (.drw 1 2 15) = true := by decide

/-! ### Decoding (R71, R74): one word per constructor, N1 N2 N3 N4 from the left -/

theorem test_decode_cls : decode 0b0000_0000_1110_0000 = .instr .cls := by decide
theorem test_decode_ret : decode 0b0000_0000_1110_1110 = .instr .ret := by decide
theorem test_decode_jp : decode 0b0001_0010_0011_0100 = .instr (.jp 0x234) := by decide
theorem test_decode_call : decode 0b0010_1100_0000_0010 = .instr (.call 0xC02) := by decide
theorem test_decode_seImm : decode 0b0011_1010_0000_0101 = .instr (.seImm 10 0x05) := by decide
theorem test_decode_sneImm : decode 0b0100_0010_0001_0001 = .instr (.sneImm 2 0x11) := by decide
theorem test_decode_seReg : decode 0b0101_0011_0100_0000 = .instr (.seReg 3 4) := by decide
theorem test_decode_ldImm : decode 0b0110_1010_0010_1111 = .instr (.ldImm 10 0x2F) := by decide
theorem test_decode_addImm : decode 0b0111_1111_0000_0001 = .instr (.addImm 15 0x01) := by decide
theorem test_decode_ldReg : decode 0b1000_0001_0010_0000 = .instr (.ldReg 1 2) := by decide
theorem test_decode_orReg : decode 0b1000_0001_0010_0001 = .instr (.orReg 1 2) := by decide
theorem test_decode_andReg : decode 0b1000_0001_0010_0010 = .instr (.andReg 1 2) := by decide
theorem test_decode_xorReg : decode 0b1000_0001_0010_0011 = .instr (.xorReg 1 2) := by decide
theorem test_decode_addReg : decode 0b1000_0011_1010_0100 = .instr (.addReg 3 10) := by decide
theorem test_decode_sub : decode 0b1000_0001_0010_0101 = .instr (.sub 1 2) := by decide
theorem test_decode_shr : decode 0b1000_0001_0010_0110 = .instr (.shr 1 2) := by decide
theorem test_decode_subn : decode 0b1000_0001_0010_0111 = .instr (.subn 1 2) := by decide
theorem test_decode_shl : decode 0b1000_0001_0010_1110 = .instr (.shl 1 2) := by decide
theorem test_decode_sneReg : decode 0b1001_0011_0100_0000 = .instr (.sneReg 3 4) := by decide
theorem test_decode_ldI : decode 0b1010_0010_1111_0000 = .instr (.ldI 0x2F0) := by decide
theorem test_decode_jpV0 : decode 0b1011_0011_0000_0001 = .instr (.jpV0 0x301) := by decide
theorem test_decode_rnd : decode 0b1100_0011_0000_1111 = .instr (.rnd 3 0x0F) := by decide
theorem test_decode_drw : decode 0b1101_0001_0010_1011 = .instr (.drw 1 2 11) := by decide
theorem test_decode_skp : decode 0b1110_0001_1001_1110 = .instr (.skp 1) := by decide
theorem test_decode_sknp : decode 0b1110_0001_1010_0001 = .instr (.sknp 1) := by decide
theorem test_decode_ldVxDt : decode 0b1111_0010_0000_0111 = .instr (.ldVxDt 2) := by decide
theorem test_decode_ldVxK : decode 0b1111_0011_0000_1010 = .instr (.ldVxK 3) := by decide
theorem test_decode_ldDtVx : decode 0b1111_0100_0001_0101 = .instr (.ldDtVx 4) := by decide
theorem test_decode_ldStVx : decode 0b1111_0101_0001_1000 = .instr (.ldStVx 5) := by decide
theorem test_decode_addI : decode 0b1111_0110_0001_1110 = .instr (.addI 6) := by decide
theorem test_decode_ldF : decode 0b1111_0111_0010_1001 = .instr (.ldF 7) := by decide
theorem test_decode_ldB : decode 0b1111_1000_0011_0011 = .instr (.ldB 8) := by decide
theorem test_decode_stRegs : decode 0b1111_1111_0101_0101 = .instr (.stRegs 15) := by decide
theorem test_decode_ldRegs : decode 0b1111_1001_0110_0101 = .instr (.ldRegs 9) := by decide

/-- The unknown words of vectors Q4, Q8, Q9, Q10. -/
theorem test_decode_unknown :
    decode 0x0000 = .unknown 0x0000 ∧ decode 0x8128 = .unknown 0x8128 ∧ decode 0x5121 = .unknown 0x5121 ∧
      decode 0x00FB = .unknown 0x00FB ∧ decode 0x0123 = .unknown 0x0123 ∧ decode 0x01E0 = .unknown 0x01E0 ∧
      decode 0xE19F = .unknown 0xE19F ∧ decode 0xF100 = .unknown 0xF100 ∧ decode 0xF175 = .unknown 0xF175 ∧
      decode 0x9121 = .unknown 0x9121 ∧ decode 0x812F = .unknown 0x812F := by decide

/-- Q9, Q10 with STRICT_DECODE = false. -/
theorem test_decode_loose :
    decodeWith false 0x5121 = .instr (.seReg 1 2) ∧ decodeWith false 0x01E0 = .instr .cls := by decide

/-! ### Fetch and the step cycle (vectors of 95, 2.1) -/

/-- Q1: the byte at PC is the high byte. -/
theorem test_step_Q1 : ends State.reset 0x612A (fun t => t.getV 1 = 0x2A ∧ t.pc = 0x0202) = true := by decide
/-- Q2: an odd PC. -/
theorem test_step_Q2 : ends (atPc 0x201) 0x612A (fun t => t.getV 1 = 0x2A ∧ t.pc = 0x0203) = true := by decide
/-- Q3: at PC = 4095 the low byte is 0. -/
theorem test_step_Q3 :
    (match step ({ atPc 0xFFF with mem := [(0xFFF, 0x12)] } : State) with
      | .next t => t.pc == 0x0200
      | _ => false) = true := by decide
/-- Q6: PC wraps modulo 65536. -/
theorem test_step_Q6 : step (atPc 0xFFFF) = .next (atPc 0x0001) ∧ stepResult (atPc 0xFFFF) = .unknown 0x0000 :=
  ⟨rfl, by decide⟩
/-- T13: a step while waiting. -/
theorem test_step_T13 : step (waiting 3) = .next (waiting 3) ∧ stepResult (waiting 3) = .blocked :=
  ⟨rfl, by decide⟩
/-- `decodeTableWord` and `withFetchWord` number the bits of a row as spec/opcode_table.json does. -/
theorem test_table_word : decodeTableWord 16 0x83A4 = some (.addReg 3 10) ∧ decodeTableWord 16 0x8128 = none := by
  decide

/-! ### Control flow (vectors of 95, 2.2) -/

/-- K17. -/
theorem test_ret_K17 :
    ends { atPc 0x300 with stack := [0x208] } 0x00EE (fun t => t.pc = 0x0208 ∧ t.stack = []) = true := by decide
/-- K18. -/
theorem test_ret_K18 : ends (atPc 0x300) 0x00EE (fun t => t.pc = 0x0302 ∧ t.stack = []) = true := by decide
/-- S5, K11. -/
theorem test_jp_K11 : ends (atPc 0) 0x1123 (fun t => t.pc = 0x0123) = true := by decide
/-- K14. -/
theorem test_call_K14 : ends (atPc 0x206) 0x2300 (fun t => t.pc = 0x0300 ∧ t.stack = [0x0208]) = true := by decide
/-- K15. -/
theorem test_call_K15 : ends (atPc 0x206) 0x2301 (fun t => t.pc = 0x0208 ∧ t.stack = []) = true := by decide
/-- K1. -/
theorem test_seImm_K1 : ends State.reset 0x3100 (fun t => t.pc = 0x0204) = true := by decide
/-- K2. -/
theorem test_seImm_K2 : ends (setup [.setV 1 1]) 0x3100 (fun t => t.pc = 0x0202) = true := by decide
/-- K3. -/
theorem test_sneImm_K3 : ends (setup [.setV 2 0x10]) 0x4210 (fun t => t.pc = 0x0202) = true := by decide
/-- K4. -/
theorem test_sneImm_K4 : ends (setup [.setV 2 0x10]) 0x4211 (fun t => t.pc = 0x0204) = true := by decide
/-- K5. -/
theorem test_seReg_K5 : ends (setup [.setV 3 7, .setV 4 7]) 0x5340 (fun t => t.pc = 0x0204) = true := by decide
/-- K6. -/
theorem test_seReg_K6 : ends (setup [.setV 3 7, .setV 4 8]) 0x5340 (fun t => t.pc = 0x0202) = true := by decide
/-- K8. -/
theorem test_sneReg_K8 : ends (setup [.setV 3 7, .setV 4 8]) 0x9340 (fun t => t.pc = 0x0204) = true := by decide
/-- K9. -/
theorem test_sneReg_K9 : ends (setup [.setV 3 7, .setV 4 7]) 0x9340 (fun t => t.pc = 0x0202) = true := by decide
/-- K20. -/
theorem test_jpV0_K20 : ends (setup [.setV 0 4]) 0xB300 (fun t => t.pc = 0x0304) = true := by decide
/-- K21. -/
theorem test_jpV0_K21 : ends (setup [.setV 0 0xFF]) 0xBFFF (fun t => t.pc = 0x10FE) = true := by decide

/-! ### ALU (vectors of 95, 2.3) -/

/-- A1. -/
theorem test_ldImm_A1 : ends State.reset 0x6A2F (fun t => t.getV 10 = 0x2F) = true := by decide
/-- A2. -/
theorem test_addImm_A2 : ends (setup [.setV 1 0xFF]) 0x7101 (fun t => t.getV 1 = 0 ∧ t.getV 15 = 0) = true := by decide
/-- A4. -/
theorem test_ldReg_A4 : ends (setup [.setV 2 0x33]) 0x8120 (fun t => t.getV 1 = 0x33) = true := by decide
/-- A5. -/
theorem test_orReg_A5 : ends (setup [.setV 1 0xF0, .setV 2 0x0F, .setV 15 0x5A]) 0x8121
    (fun t => t.getV 1 = 0xFF ∧ t.getV 15 = 0x5A) = true := by decide
/-- A6. -/
theorem test_andReg_A6 : ends (setup [.setV 1 0xF3, .setV 2 0x3C]) 0x8122 (fun t => t.getV 1 = 0x30) = true := by decide
/-- A7. -/
theorem test_xorReg_A7 : ends (setup [.setV 1 0xFF, .setV 2 0x0F]) 0x8123 (fun t => t.getV 1 = 0xF0) = true := by decide
/-- A9. -/
theorem test_addReg_A9 : ends (setup [.setV 1 0xF0, .setV 2 0x20]) 0x8124
    (fun t => t.getV 1 = 0x10 ∧ t.getV 15 = 1) = true := by decide
/-- A13: the carry overwrites the sum. -/
theorem test_addReg_A13 : ends (setup [.setV 15 0x10, .setV 1 3]) 0x8F14 (fun t => t.getV 15 = 0) = true := by decide
/-- A19: with X = F only the flag is written. -/
theorem test_sub_A19 : ends (setup [.setV 15 0x10, .setV 1 0x20]) 0x8F15 (fun t => t.getV 15 = 0) = true := by decide
/-- A21: the subtrahend is the old VF. -/
theorem test_sub_A21 : ends (setup [.setV 1 0x10, .setV 15 3]) 0x81F5
    (fun t => t.getV 1 = 0x0D ∧ t.getV 15 = 1) = true := by decide
/-- A23. -/
theorem test_shr_A23 : ends (setup [.setV 1 5, .setV 2 0xAA]) 0x8126
    (fun t => t.getV 2 = 2 ∧ t.getV 15 = 1 ∧ t.getV 1 = 5) = true := by decide
/-- A27: the source is the old VF. -/
theorem test_shr_A27 : ends (setup [.setV 15 7]) 0x8F26 (fun t => t.getV 2 = 3 ∧ t.getV 15 = 1) = true := by decide
/-- A29. -/
theorem test_subn_A29 : ends (setup [.setV 1 0x10, .setV 2 0x20]) 0x8127
    (fun t => t.getV 2 = 0xF0 ∧ t.getV 15 = 1 ∧ t.getV 1 = 0x10) = true := by decide
/-- A34. -/
theorem test_subn_A34 : ends (setup [.setV 1 0x10, .setV 15 3]) 0x81F7
    (fun t => t.getV 15 = 0x0D ∧ t.getV 1 = 0x10) = true := by decide
/-- A37: the flag is bit 0, and bit 7 is lost. -/
theorem test_shl_A37 : ends (setup [.setV 1 0x81]) 0x812E
    (fun t => t.getV 2 = 2 ∧ t.getV 15 = 1 ∧ t.getV 1 = 0x81) = true := by decide
/-- A41. -/
theorem test_shl_A41 : ends (setup [.setV 1 0x41]) 0x81FE (fun t => t.getV 15 = 0x82) = true := by decide
/-- A46: any draw under the mask 0. -/
theorem test_rnd_A46 : ∃ t, step (State.reset.withFetchWord 16 0xC300) = .next t ∧ t.getV 3 = 0 :=
  ⟨((State.reset.withFetchWord 16 0xC300).advance.draw8.2).setV 3
      (Config.draw 0 &&& 0), rfl, (BitVec.and_zero : Config.draw 0 &&& 0#8 = 0#8)⟩

/-! ### Index register and memory (vectors of 95, 2.4) -/

/-- M1. -/
theorem test_ldI_M1 : ends State.reset 0xA123 (fun t => t.i = 0x0123) = true := by decide
/-- M2. -/
theorem test_addI_M2 : ends (setup [.setI 0xFFF, .setV 0 1]) 0xF01E (fun t => t.i = 0x1000) = true := by decide
/-- M3. -/
theorem test_addI_M3 : ends (setup [.setI 0xFFFF, .setV 0 2]) 0xF01E (fun t => t.i = 1 ∧ t.getV 15 = 0) = true := by
  decide
/-- M4. -/
theorem test_ldF_M4 : ends (setup [.setV 0 0x0A]) 0xF029 (fun t => t.i = 0x0082) = true := by decide
/-- M7. -/
theorem test_ldF_M7 : ends (setup [.setV 0 0xFF]) 0xF029 (fun t => t.i = 0x054B) = true := by decide
/-- M8. -/
theorem test_ldB_M8 : ends (setup [.setV 1 0xFF, .setI 0x300]) 0xF133
    (fun t => t.readMem 0x300 = 2 ∧ t.readMem 0x301 = 5 ∧ t.readMem 0x302 = 5 ∧ t.i = 0x300) = true := by decide
/-- M12: the third digit is dropped. -/
theorem test_ldB_M12 : ends (setup [.setV 1 123, .setI 0xFFE]) 0xF133
    (fun t => t.readMem 0xFFE = 1 ∧ t.readMem 0xFFF = 2 ∧ t.readMem 0 = 0) = true := by decide
/-- M13. -/
theorem test_stRegs_M13 :
    ends (setup [.setI 0x400, .setV 0 0x11, .setV 1 0x22, .setV 2 0x33, .write 0x403 0xEE]) 0xF255
      (fun t => t.readMem 0x400 = 0x11 ∧ t.readMem 0x401 = 0x22 ∧ t.readMem 0x402 = 0x33 ∧ t.readMem 0x403 = 0xEE ∧
        t.i = 0x403) = true := by decide
/-- M17: nothing is written, I wraps. -/
theorem test_stRegs_M17 : ends (setup [.setI 0xFFFF, .setV 0 0x11]) 0xF155
    (fun t => t.readMem 0 = 0 ∧ t.i = 0x0001) = true := by decide
/-- M18. -/
theorem test_ldRegs_M18 : ends (setup [.setI 0x400, .load [0xAA, 0xBB, 0xCC] 0x400, .setV 3 0x99]) 0xF265
    (fun t => t.getV 0 = 0xAA ∧ t.getV 1 = 0xBB ∧ t.getV 2 = 0xCC ∧ t.getV 3 = 0x99 ∧ t.i = 0x403) = true := by decide
/-- M19: out of range reads 0. -/
theorem test_ldRegs_M19 : ends (setup [.setI 0xFFE, .load [0xAA, 0xBB] 0xFFE, .setV 2 0x77]) 0xF265
    (fun t => t.getV 0 = 0xAA ∧ t.getV 1 = 0xBB ∧ t.getV 2 = 0 ∧ t.i = 0x1001) = true := by decide

/-! ### Display (vectors of 95, 2.5) -/

/-- W15: 00E0 clears the screen and leaves VF. -/
theorem test_cls_W15 : ends (setup [.setPixel 31 63 true, .setV 15 1]) 0x00E0
    (fun t => t.isClear ∧ t.getV 15 = 1) = true := by decide
/-- W1. -/
theorem test_drw_W1 : ends (setup [.setI 0x300, .write 0x300 0xC0, .setV 1 62, .setV 2 31]) 0xD121
    (fun t => t.getPixel 31 62 ∧ t.getPixel 31 63 ∧ !t.getPixel 31 0 ∧ !t.getPixel 0 62 ∧ t.getV 15 = 0) = true := by
  decide
/-- W7: bit 7 is the leftmost pixel; a set bit on a lit pixel clears it and sets VF. -/
theorem test_drw_W7 : ends (setup [.setI 0x300, .write 0x300 0x81, .setPixel 0 0 true]) 0xD121
    (fun t => !t.getPixel 0 0 ∧ t.getPixel 0 7 ∧ t.getV 15 = 1) = true := by decide

/-! ### Keys, timers, host operations (vectors of 95, 2.6 and 2.7) -/

/-- T1. -/
theorem test_skp_T1 : ends (setup [.setV 1 5, .keyDown 5]) 0xE19E (fun t => t.pc = 0x0204) = true := by decide
/-- T3: the whole byte is the key number. -/
theorem test_skp_T3 : ends (setup [.setV 1 0x15, .keyDown 5]) 0xE19E (fun t => t.pc = 0x0202) = true := by decide
/-- T5. -/
theorem test_sknp_T5 : ends (setup [.setV 1 5, .keyDown 5]) 0xE1A1 (fun t => t.pc = 0x0202) = true := by decide
/-- T6. -/
theorem test_sknp_T6 : ends (setup [.setV 1 0x10]) 0xE1A1 (fun t => t.pc = 0x0204) = true := by decide
/-- T7. -/
theorem test_ldVxDt_T7 : ends { State.reset with dt := 0x2A } 0xF107 (fun t => t.getV 1 = 0x2A ∧ t.dt = 0x2A) = true := by
  decide
/-- T8. -/
theorem test_ldDtVx_T8 : ends { setup [.setV 1 0x3C] with st := 9 } 0xF115 (fun t => t.dt = 0x3C ∧ t.st = 9) = true := by
  decide
/-- T9. -/
theorem test_ldStVx_T9 : ends { setup [.setV 1 0x3C] with dt := 9 } 0xF118 (fun t => t.st = 0x3C ∧ t.dt = 9) = true := by
  decide
/-- T12: a held key does not satisfy the wait. -/
theorem test_ldVxK_T12 : ends (setup [.keyDown 4]) 0xF30A
    (fun t => t.wait = .waitKey 3 ∧ t.getV 3 = 0 ∧ t.pc = 0x0202) = true := by decide
/-- T15. -/
theorem test_keyDown_T15 :
    ((waiting 3).host (.keyDown 4)).getV 3 = 4 ∧ ((waiting 3).host (.keyDown 4)).wait = .run ∧
      ((waiting 3).host (.keyDown 4)).key 4 = true := by decide
/-- T14, T16. -/
theorem test_wait_T14_T16 :
    ((waiting 3).host (.keyUp 4)).wait = .waitKey 3 ∧ (waiting 3).host (.keyDown 16) = waiting 3 := by decide
/-- T17. -/
theorem test_cancel_T17 : (waiting 3).host .cancel = State.reset := by decide
/-- T10, T11. -/
theorem test_ticks_T10_T11 :
    (({ State.reset with dt := 2 } : State).host .tickDelay).dt = 1 ∧ (State.reset.host .tickSound).st = 0 := by decide
/-- H2: the byte at 0x1000 is dropped. -/
theorem test_load_H2 :
    (setup [.load [0xAA, 0xBB, 0xCC] 0xFFE]).readMem 0xFFF = 0xBB ∧
      (setup [.load [0xAA, 0xBB, 0xCC] 0xFFE]).readMem 0 = 0 ∧ (setup [.load [0xAA] 0xFFE]).pc = 0x200 := by decide
/-- H4, H5. -/
theorem test_setters_H4_H5 :
    setup [.setV 16 7] = State.reset ∧ State.reset.getV 16 = 0 ∧ (setup [.setV 1 0x1FF]).getV 1 = 0xFF ∧
      (setup [.setPC 0x10203]).pc = 0x0203 := by decide
/-- H1. -/
theorem test_reset_H1 :
    State.reset.readMem 0x04F = 0 ∧ State.reset.readMem 0x050 = 0xF0 ∧ State.reset.readMem 0x051 = 0x90 ∧
      State.reset.readMem 0x09C = 0x80 ∧ State.reset.readMem 0x09F = 0x80 ∧ State.reset.readMem 0x0A0 = 0 := by decide
/-- S2, S3, H6: out of range. -/
theorem test_out_of_range :
    State.reset.host (.write 0x1000 0xFF) = State.reset ∧ (setup [.setPixel 32 0 true]).isClear = true ∧
      (setup [.setPixel 31 63 true]).isClear = false ∧ State.reset.getPixel 0 64 = false := by decide

/-! ### Witnesses: the hypotheses of the statements can be met -/

theorem witness_DecodeOfEncodeIsTheInstruction :
    Instr.wellFormed (.drw 15 0 15) = true ∧ Instr.wellFormed (.jp 0xFFF) = true := by decide

theorem witness_EncodeOfDecodeIsTheWord :
    decodeWith true 0xDF0F = .instr (.drw 15 0 15) ∧ decodeWith true 0x00EE = .instr .ret := by decide

/-- Both directions of the first two clauses: a word a row selects, and one that none selects. -/
theorem witness_DecoderIsTheOpcodeMap :
    (∃ row ∈ opcodeTable, row.selects true 0x83A4 = true ∧ row.build 0x83A4 = .addReg 3 10) ∧
    (∃ row ∈ opcodeTable, row.selects false 0x5121 = true ∧ row.build 0x5121 = .seReg 1 2) ∧
    (∀ row ∈ opcodeTable, row.selects true 0x8128 = false) := by decide

theorem witness_FetchIsBigEndianAndRangeChecked :
    (atPc 0x0FFF).pc.toNat = 4095 ∧ 4096 ≤ (atPc 0x1000).pc.toNat ∧ 4096 ≤ (atPc 0xFFFF).pc.toNat := by decide

theorem witness_StepRunsTheDecodedInstruction :
    (State.reset.withFetchWord 16 0x612A).wait = .run ∧
      decode (State.reset.withFetchWord 16 0x612A).fetchWord = .instr (.ldImm 1 0x2A) := by decide

/-- The placed word at PC = 4094, 4095 and 65535, and in a waiting state: its one hypothesis is about the word. -/
theorem witness_PlacedWordIsTheNextInstruction :
    decode 0x612A = .instr (.ldImm 1 0x2A) ∧ ((atPc 0xFFE).withFetchWord 16 0x612A).fetchWord = 0x612A ∧
      ((atPc 0xFFF).withFetchWord 16 0x612A).fetchWord = 0x612A ∧
      ((atPc 0xFFFF).withFetchWord 16 0x612A).fetchWord = 0x612A ∧
      ((waiting 3).withFetchWord 16 0x612A).fetchWord = 0x612A := by decide

theorem witness_UnknownOpcodeIsNoOpWithReport :
    (State.reset.withFetchWord 16 0x8128).wait = .run ∧
      decode (State.reset.withFetchWord 16 0x8128).fetchWord = .unknown 0x8128 := by decide

theorem witness_StepOutsideMemoryOnlyClimbs :
    ((atPc 0x1000).wait = .run ∧ 4096 ≤ (atPc 0x1000).pc.toNat) ∧ ((atPc 0xFFFE).wait = .run ∧ 4096 ≤ (atPc 0xFFFE).pc.toNat) ∧
      ((atPc 0xFFFF).wait = .run ∧ 4096 ≤ (atPc 0xFFFF).pc.toNat) := by decide

theorem witness_StepWhileWaitingChangesNothing : (waiting 15).wait = .waitKey 15 := by decide

/-- Each result is met: Blocked both ways, Unknown, Done; and a step that answers a waiting state. -/
theorem witness_StepReportsWhatItDid :
    stepResult (waiting 0) = .blocked ∧ stepResult (State.reset.withFetchWord 16 0xF30A) = .blocked ∧
      stepResult State.reset = .unknown 0 ∧ stepResult (State.reset.withFetchWord 16 0x612A) = .done ∧
      step (waiting 0) = .next (waiting 0) ∧ step (atPc 0x1000) = .next (atPc 0x1002) :=
  ⟨by decide, by decide, by decide, by decide, rfl, rfl⟩

theorem witness_JumpToSelfChangesNothing : ProgramEnded (State.reset.withFetchWord 16 0x1200) :=
  ⟨rfl, 0x200, by decide, by decide⟩

/-- Memory at both ends, and two different addresses. -/
theorem witness_MemoryReadAndWriteContract : 0 < 4096 ∧ 4095 < 4096 ∧ 4094 ≠ 4095 ∧ 4096 ≤ 4096 ∧
    (State.reset.writeMem 4095 0xAB).readMem 4095 = 0xAB ∧ State.reset.readMem 4096 = 0 := by decide

theorem witness_CanonicalMemoryIsDeterminedByItsBytes :
    Memory.wf [(0x200, 0x12), (0xFFF, 0x01)] ∧
      (∀ a, Memory.read [(0x200, 0x12), (0xFFF, 0x01)] a = Memory.read [(0x200, 0x12), (0xFFF, 0x01)] a) :=
  ⟨by decide, fun _ => rfl⟩

/-- Pixels at the ends of the screen, and beyond each edge. -/
theorem witness_FramebufferContract :
    (State.reset.setPixel 31 63 true).getPixel 31 63 = true ∧ (30, 63) ≠ (31, 63) ∧ ¬ (32 < 32 ∧ 0 < 64) ∧
      ¬ (0 < 32 ∧ 64 < 64) ∧ (State.reset.setPixel 0 64 true).isClear = true := by decide

/-- An even and an odd target at each end. -/
theorem witness_CallPushesAndJumpsOrIsRefused :
    (0x000 : Addr12).toNat % 2 = 0 ∧ (0xFFE : Addr12).toNat % 2 = 0 ∧ (0x001 : Addr12).toNat % 2 = 1 ∧
      (0xFFF : Addr12).toNat % 2 = 1 := by decide

/-- Full at capacity 0 and at capacity 1, below it at capacity 1, and an odd target. -/
theorem witness_CallUnderACapFaultsWhenFull :
    (0x300 : Addr12).toNat % 2 = 0 ∧ 0 ≤ State.reset.stack.length ∧
      1 ≤ ({ State.reset with stack := [0x208] } : State).stack.length ∧ State.reset.stack.length < 1 ∧
      (0x301 : Addr12).toNat % 2 = 1 := by decide

/-- A stack with an entry, an empty stack, and a call that answers a state whose stack another state shares. -/
theorem witness_ReturnPopsOrDoesNothing :
    ({ State.reset with stack := [0x20D, 0x208] } : State).stack = 0x20D :: [0x208] ∧ State.reset.stack = [] ∧
      (0x300 : Addr12).toNat % 2 = 0 ∧
      exec (.call 0x300) State.reset = .next { State.reset with pc := 0x300, stack := [0x200] } ∧
      (({ State.reset with stack := [0x200] } : State).stack =
        ({ State.reset with pc := 0x300, stack := [0x200] } : State).stack) :=
  ⟨rfl, rfl, by decide, rfl, rfl⟩

/-- A call of 0x300 at 0x200, and 00 EE at 0x300. -/
theorem witness_CallStepThenReturnStepComesBack :
    let s := setup [.load [0x23, 0x00] 0x200, .load [0x00, 0xEE] 0x300]
    s.wait = .run ∧ decode s.fetchWord = .instr (.call 0x300) ∧ (0x300 : Addr12).toNat % 2 = 0 ∧
      s.readMem (0x300 : Addr12).toNat = 0x00 ∧ s.readMem ((0x300 : Addr12).toNat + 1) = 0xEE := by decide

/-- A word of each family the encoding clauses name, operand fields at their ends. -/
theorem witness_JumpsSetTheProgramCounter : nibble1 0x1FFF = 0x1 ∧ nibble1 0xB000 = 0xB := by decide
theorem witness_RegisterSkipsMovePastOneWord :
    nibble1 0x3FFF = 0x3 ∧ nibble1 0x4000 = 0x4 ∧ (nibble1 0x5FF0 = 0x5 ∧ nibble4 0x5FF0 = 0x0) ∧
      (nibble1 0x900F = 0x9 ∧ false = false) := by decide
theorem witness_LoadsAndAddImmediate :
    nibble1 0x6FFF = 0x6 ∧ nibble1 0x7000 = 0x7 ∧ (nibble1 0x8FF0 = 0x8 ∧ nibble4 0x8FF0 = 0x0) := by decide
theorem witness_IndexRegisterLoads :
    nibble1 0xAFFF = 0xA ∧ (nibble1 0xFF1E = 0xF ∧ fieldNN 0xFF1E = 0x1E) ∧
      (nibble1 0xF029 = 0xF ∧ fieldNN 0xF029 = 0x29) := by decide

/-- A key number of 16 and of 255. -/
theorem witness_KeySkipsTestTheLatch :
    16 ≤ ((setup [.setV 1 16]).getV 1).toNat ∧ 16 ≤ ((setup [.setV 1 255]).getV 1).toNat := by decide

/-- Destinations other than VF, for 8XY4, 8XY5 (x) and 8XY6, 8XYE, 8XY7 (y). -/
theorem witness_AddRegistersSetsTheCarry : (14 : Reg) ≠ VF := by decide
theorem witness_SubtractSetsNoBorrow : (0 : Reg) ≠ VF := by decide
theorem witness_ShiftsGoIntoVyWithOldBit0 : (14 : Reg) ≠ VF := by decide
theorem witness_SubnFollowsTheTableRow : (0 : Reg) ≠ VF := by decide
theorem witness_RandomByteIsMasked : ∃ nn : Byte, nn = 0 := ⟨0x00, by decide⟩

/-- I at 0xFFF: the first digit is in memory, the other two are not; at 0xFFD all three are. -/
theorem witness_BcdStoresTheThreeDigits :
    (setup [.setI 0xFFF]).indexAddr 0 < 4096 ∧ (setup [.setI 0xFFE]).indexAddr 1 < 4096 ∧
      (setup [.setI 0xFFD]).indexAddr 2 < 4096 ∧ ¬ (setup [.setI 0xFFF]).indexAddr 1 < 4096 := by decide

/-- The first and the last register of a transfer, at the end of memory. -/
theorem witness_StoreRegistersAndAdvanceIndex :
    0 ≤ (15 : Reg).val ∧ (setup [.setI 0xFFF]).indexAddr 0 < 4096 ∧ 15 ≤ (15 : Reg).val ∧
      (setup [.setI 0xFF0]).indexAddr 15 < 4096 := by decide

theorem witness_LoadRegistersAndAdvanceIndex :
    15 ≤ (15 : Reg).val ∧ 4096 ≤ (setup [.setI 0xFF1]).indexAddr 15 ∧ 0 ≤ (0 : Reg).val ∧
      4096 ≤ (setup [.setI 0xFFFF]).indexAddr 0 := by decide

/-- A spill of V0, V1 to the end of memory, and a second state at the same I that reads alike. -/
theorem witness_SpillThenFillGivesTheRegistersBack :
    let s := setup [.setI 0xFFE, .setV 0 0x11, .setV 1 0x22]
    ∃ t u : State, s.indexAddr (1 : Reg) < 4096 ∧ exec (.stRegs 1) s = .next t ∧ u.i = s.i ∧ u.getV 0 = 0 ∧
      ∀ a, u.readMem a = t.readMem a :=
  ⟨{ setup [.setI 0x1000, .setV 0 0x11, .setV 1 0x22] with mem := [(0xFFE, 0x11), (0xFFF, 0x22)] },
    { setup [.setI 0xFFE] with mem := [(0xFFE, 0x11), (0xFFF, 0x22)] },
    by decide, rfl, rfl, by decide, fun _ => rfl⟩

/-- FX55 with I at the next word, at the last place the two fit. -/
theorem witness_StoredWordIsFetchedNext :
    let s := { (atPc 0xFFC).withFetchWord 16 0xF155 with i := 0xFFE }
    s.wait = .run ∧ decode s.fetchWord = .instr (.stRegs 1) ∧ 1 ≤ (1 : Reg).val ∧
      s.i.toNat = s.pc.toNat + 2 ∧ s.pc.toNat + 3 < 4096 := by decide

/-- The first and the last sprite position inside the screen, and a set bit of it over a lit pixel. -/
theorem witness_DrawIsXorWithCollision :
    let s := setup [.setI 0x300, .write 0x30E 0x01, .setV 1 0x78, .setV 2 0x31, .setPixel 31 63 true]
    0 < 15 ∧ 0 < 8 ∧ 14 < 15 ∧ 7 < 8 ∧ (s.getV 2).toNat % 32 + 14 < 32 ∧ (s.getV 1).toNat % 64 + 7 < 64 ∧
      s.getPixel ((s.getV 2).toNat % 32 + 14) ((s.getV 1).toNat % 64 + 7) = true ∧
      (s.readMem (s.i.toNat + 14)).getLsbD (7 - 7) = true := by decide

/-- Registers other than VF, and a set sprite bit over a pixel that is false. -/
theorem witness_DrawingTwiceRestoresTheScreen :
    let s := setup [.setI 0x300, .write 0x300 0x80]
    (1 : Reg) ≠ VF ∧ (2 : Reg) ≠ VF ∧ 0 < 1 ∧ 0 < 8 ∧ s.spriteRow 2 + 0 < 32 ∧ s.spriteCol 1 + 0 < 64 ∧
      spriteBit (s.readMem (s.indexAddr 0)) 0 = true ∧ s.getPixel (s.spriteRow 2 + 0) (s.spriteCol 1 + 0) = false := by
  decide

theorem witness_WaitForKeyBlocksUntilTheEvent :
    ∀ k ∈ [0, 15], k < 16 ∧ ((waiting 3).host (.keyDown k)).wait = .run := by decide

theorem witness_OnlyKeyDownOrCancelEndsAWait :
    (waiting 3).wait = .waitKey 3 ∧ ((waiting 3).host (.keyDown 16)).wait = .waitKey 3 ∧
      ((waiting 3).host (.keyDown 15)).wait = .run ∧ ((waiting 3).host .cancel).wait = .run := by decide

theorem witness_KeyEventsOutsideAWaitSetTheLatch : State.reset.wait = .run ∧ 0 < 16 ∧ 15 < 16 ∧ 16 ≤ 16 := by decide

theorem witness_KeyUpClearsOneKey : 15 < 16 ∧ 16 ≤ 16 ∧ ((setup [.keyDown 15]).host (.keyUp 15)).key 15 = false := by
  decide

/-- Two different keys, outside a wait. -/
theorem witness_HostEventsCommute :
    0 ≠ 15 ∧ State.reset.wait = .run ∧ HostOp.cancel ∈ [HostOp.tickDelay, .tickSound, .keyDown 0, .keyUp 0, .cancel] := by
  decide

/-- The last byte of a load that is stored, an address on either side of it, and a place that is no byte. -/
theorem witness_LoadCopiesIntoMemoryOnly :
    ([0xAA, 0xBB, 0xCC] : List Byte)[1]? = some 0xBB ∧ 0xFFE + 1 < 4096 ∧ 0xFFD < 0xFFE ∧
      0x100 + [0xAA, 0xBB, 0xCC].length ≤ 0x103 ∧ (∀ a, Place.pc ≠ .byte a) :=
  ⟨by decide, by decide, by decide, by decide, fun _ h => Place.noConfusion h⟩

theorem witness_SettersWriteOneItemReduced : 16 ≤ 16 ∧ (setup [.setV 15 0x1FF]).getV 15 = 0xFF := by decide

/-- The addresses on either side of the font, the ends of memory, and the ends of the font. -/
theorem witness_ResetMemoryIsZeroAndTheFont :
    (∀ a ∈ [0, 0x04F, 0x0A0, 4095], a < 4096 ∧ ¬ (0x050 ≤ a ∧ a ≤ 0x09F)) ∧ 0 < 80 ∧ 79 < 80 := by decide

/-- An instruction that answers a state other than the one it started in. -/
theorem witness_AccessTableBoundsEveryInstruction :
    exec (.jp 0x300) State.reset = .next (atPc 0x300) ∧
      exec .cls (setup [.setPixel 1 1 true]) = .next State.reset := ⟨rfl, rfl⟩

/-- A state that meets the invariant, with memory listed and a call outstanding, and a step from it. -/
theorem witness_EveryStepKeepsTheInvariant :
    let s := { State.reset with mem := [(0x200, 0x13)], stack := [0x208] }
    s.Inv ∧ step s = .next { s with pc := 0x300 } :=
  ⟨⟨by decide, by simp [params]⟩, rfl⟩

/-- The parameter settings of the clauses on parameters: an infinite and a finite STACK_CAP. -/
def capped (cap : Nat) : Params := { params with stackCap := some cap, strictDecode := false }

theorem witness_EveryHistoryRunsAndKeepsTheInvariant : params.stackCap = none := rfl

/-- A waiting state, an unknown word, a call, and a word that STRICT_DECODE = false alone makes an instruction. -/
theorem witness_StepUnderEveryParameterSetting :
    (waiting 3).wait = .waitKey 3 ∧
      decodeWith false (State.reset.withFetchWord 16 0x8128).fetchWord = .unknown 0x8128 ∧
      decodeWith false (State.reset.withFetchWord 16 0x2300).fetchWord = .instr (.call 0x300) ∧
      decodeWith false (State.reset.withFetchWord 16 0x01E0).fetchWord = .instr .cls ∧
      (∀ nnn, Instr.cls ≠ .call nnn) ∧ (State.reset.withFetchWord 16 0x01E0).wait = .run :=
  ⟨rfl, by decide, by decide, by decide, fun _ h => Instr.noConfusion h, rfl⟩

/-- A call on a full stack, at capacity 0, and a step that is none. -/
theorem witness_StepFaultsExactlyOnAFullStack :
    stepWith (capped 0) (State.reset.withFetchWord 16 0x2300) = .fault .stackFull ∧
      stepWith (capped 0) State.reset = .next (atPc 0x202) := ⟨rfl, rfl⟩

/-- A stack at its capacity, and a step from it; a call below the capacity. -/
theorem witness_EveryStepKeepsTheInvariantOfItsParameters :
    let s := { State.reset with stack := [0x208] }
    s.InvWith (capped 1) ∧ stepWith (capped 1) s = .next { s with pc := 0x202 } ∧
      State.reset.InvWith (capped 1) ∧
      (match stepWith (capped 1) (State.reset.withFetchWord 16 0x2300) with
        | .next t => t.stack.length
        | _ => 0) = 1 :=
  ⟨⟨by decide, by simp [capped]⟩, rfl, ⟨by decide, by simp [capped, State.reset, State.initial]⟩, by decide⟩

/-- R36 with a FONT that is not the default: all its bytes are 0xAA. -/
theorem test_reset_font :
    let s := State.resetWith { params with font := Vector.replicate 80 0xAA, resetPc := 0 }
    s.readMem 0x04F = 0 ∧ s.readMem 0x050 = 0xAA ∧ s.readMem 0x09F = 0xAA ∧ s.readMem 0x0A0 = 0 ∧ s.pc = 0 := by
  refine ⟨?_, ?_, ?_, ?_, rfl⟩ <;> simp [State.resetWith_readMem]

/-- Q9, Q10 as steps with STRICT_DECODE = false: 5121 executes as 5120, 01E0 clears the screen. -/
theorem test_step_loose :
    (match stepWith (capped 0) (State.reset.withFetchWord 16 0x5121) with
      | .next t => t.pc == 0x204
      | _ => false) = true ∧
    (match stepWith (capped 0) ((setup [.setPixel 0 0 true]).withFetchWord 16 0x01E0) with
      | .next t => t.isClear
      | _ => false) = true := by decide

end Sys2Proof.Tests
end

section
/-! PROOFS of the statements about the scope of the model (00_scope.md): the machine under every setting of the open
parameters (R5), and what every history of steps and host operations keeps. -/

namespace Sys2Proof.Machine

/-! ### What the operations of the machine do to memory and to the stack -/

/-- From `s` to `t` memory stays canonical and the stack does not grow: all that the invariant asks of an operation, under
every STACK_CAP. Every handler but a call does so, and every host operation. -/
def State.KeepsBounds (s t : State) : Prop :=
  (Memory.wf s.mem → Memory.wf t.mem) ∧ t.stack.length ≤ s.stack.length

theorem State.KeepsBounds.of_eq {s t : State} (hmem : t.mem = s.mem) (hstack : t.stack = s.stack) : s.KeepsBounds t :=
  ⟨fun h => hmem ▸ h, hstack ▸ le_rfl⟩

theorem State.KeepsBounds.invWith {p : Params} {s t : State} (h : s.KeepsBounds t) (hs : s.InvWith p) : t.InvWith p :=
  ⟨h.1 hs.1, fun c hc => h.2.trans (hs.2 c hc)⟩

@[simp] theorem State.skipIf_mem (s : State) (c : Bool) : (s.skipIf c).mem = s.mem := by rw [State.skipIf_eq]

@[simp] theorem State.skipIf_stack (s : State) (c : Bool) : (s.skipIf c).stack = s.stack := by rw [State.skipIf_eq]

theorem State.keepsBounds_skipIf (s : State) (c : Bool) : s.KeepsBounds (s.skipIf c) :=
  .of_eq (s.skipIf_mem c) (s.skipIf_stack c)

theorem State.drawRows_stack (x0 y0 : Nat) {n left : Nat} (hl : left ≤ n) (s : State) :
    (State.drawRows x0 y0 n left s).stack = s.stack :=
  sameAt_drawRows (p := .stack) x0 y0 n left s (by simp) hl (by simp)

@[simp] theorem State.storeRegs_stack (base n : Nat) (s : State) : (State.storeRegs base n s).stack = s.stack :=
  sameAt_storeRegs (p := .stack) base n s (by simp)

theorem State.loadRegs_stack (base : Nat) {n : Nat} (hn : n ≤ 16) (s : State) :
    (State.loadRegs base n s).stack = s.stack :=
  sameAt_loadRegs (p := .stack) base n s hn (by simp)

/-! ### Every handler answers a next state, but for a call on a full stack -/

/-- 00EE takes one entry off the stack, or does nothing (R100). -/
theorem execRet_keepsBounds (s : State) : ∃ t, execRet s = .next t ∧ s.KeepsBounds t := by
  rcases s.pop_cases with ⟨-, hpop⟩ | ⟨w, rest, hstack, hpop⟩
  · exact ⟨s, by simp [execRet, hpop], .of_eq rfl rfl⟩
  · exact ⟨{ s with pc := w, stack := rest }, by simp [execRet, hpop], id, by simp [hstack]⟩

/-- Every handler but the call's answers a next state and keeps the bounds. Only 00EE changes the stack, only FX33 and FX55
change memory (R32). -/
theorem exec_keepsBounds {i : Instr} (h : ∀ nnn, i ≠ .call nnn) (s : State) :
    ∃ t, exec i s = .next t ∧ s.KeepsBounds t := by
  cases i with
  | call nnn => exact absurd rfl (h nnn)
  | ret => exact execRet_keepsBounds s
  | seImm | sneImm | seReg | sneReg | skp | sknp => exact ⟨_, rfl, s.keepsBounds_skipIf _⟩
  | sub x y =>
    refine ⟨_, rfl, ?_⟩
    split_ifs <;> exact .of_eq rfl rfl
  | drw x y n => exact ⟨_, rfl, .of_eq (State.drawRows_mem ..) (State.drawRows_stack _ _ le_rfl _)⟩
  | ldB x => exact ⟨_, rfl, fun hm => State.writeMem_wf _ _ _ (State.writeMem_wf _ _ _ (s.writeMem_wf _ _ hm)), le_rfl⟩
  | stRegs x => exact ⟨_, rfl, fun hm => State.storeRegs_wf _ _ s hm, by simp⟩
  | ldRegs x => exact ⟨_, rfl, .of_eq (State.loadRegs_mem ..) (State.loadRegs_stack _ x.isLt s)⟩
  | _ => exact ⟨_, rfl, .of_eq rfl rfl⟩

/-- A call that answers a next state keeps the invariant: it pushes below the capacity only (R24, R102). -/
theorem callWith_keepsInv {p : Params} {nnn : Addr12} {s t : State} (hs : s.InvWith p)
    (ht : callWith p.stackCap nnn s = .next t) : t.InvWith p := by
  rcases callWith_cases p.stackCap nnn s with ⟨-, hroom, e⟩ | ⟨-, -, e⟩ | ⟨-, e⟩
  · cases e.symm.trans ht
    exact ⟨hs.1, hroom⟩
  · cases e.symm.trans ht
  · cases e.symm.trans ht
    exact hs

/-- A call faults exactly on an even target and a full stack (R102; D6, log 5). -/
theorem callWith_eq_fault_iff (cap : Option Nat) (nnn : Addr12) (s : State) :
    callWith cap nnn s = .fault .stackFull ↔ nnn.toNat % 2 = 0 ∧ ∃ c, cap = some c ∧ c ≤ s.stack.length := by
  rcases callWith_cases cap nnn s with ⟨-, hroom, e⟩ | ⟨heven, hfull, e⟩ | ⟨hodd, e⟩
  · simp only [e, reduceCtorEq, false_iff]
    rintro ⟨-, c, hc, hle⟩
    exact absurd (hroom c hc) hle.not_gt
  · exact iff_of_true e ⟨heven, hfull⟩
  · simp [e, hodd]

/-- A call faults for a full stack or answers a next state (R102). -/
theorem callWith_fault_or_next (cap : Option Nat) (nnn : Addr12) (s : State) :
    callWith cap nnn s = .fault .stackFull ∨ ∃ t, callWith cap nnn s = .next t := by
  rcases callWith_cases cap nnn s with ⟨-, -, e⟩ | ⟨-, -, e⟩ | ⟨-, e⟩
  · exact .inr ⟨_, e⟩
  · exact .inl e
  · exact .inr ⟨_, e⟩

/-! ### The step, case by case (R90, R93, R95) -/

theorem stepWith_waitKey (p : Params) {s : State} {x : Reg} (hw : s.wait = .waitKey x) :
    stepWith p s = .next s ∧ stepResultWith p s = .blocked := by
  simp [stepWith, cycleWith, stepResultWith, hw]

theorem stepWith_unknown {p : Params} {s : State} {op : Word} (hw : s.wait = .run)
    (hd : s.decodedWith p = .unknown op) :
    stepWith p s = .next s.advance ∧ stepResultWith p s = .unknown op := by
  simp [stepWith, cycleWith, stepResultWith, hw, hd]

theorem stepWith_instr {p : Params} {s : State} {i : Instr} (hw : s.wait = .run) (hd : s.decodedWith p = .instr i) :
    stepWith p s = execWith p i s.advance ∧ stepResultWith p s = if suspends i then .blocked else .done := by
  simp [stepWith, cycleWith, stepResultWith, hw, hd]

/-- All a step can do, for the invariant: it keeps the bounds of the state, or it is a call (R90). -/
theorem stepWith_keepsBounds_or_call (p : Params) (s : State) :
    (∃ t, stepWith p s = .next t ∧ s.KeepsBounds t) ∨
      s.wait = .run ∧ ∃ nnn, s.decodedWith p = .instr (.call nnn) ∧
        stepWith p s = callWith p.stackCap nnn s.advance := by
  rcases stepWith_cases p s with ⟨x, -, e, -⟩ | ⟨-, op, -, e, -⟩ | ⟨hw, i, hd, e, -⟩
  · exact .inl ⟨s, e, .of_eq rfl rfl⟩
  · exact .inl ⟨s.advance, e, .of_eq rfl rfl⟩
  · by_cases hcall : ∃ nnn, i = .call nnn
    · obtain ⟨nnn, rfl⟩ := hcall
      exact .inr ⟨hw, nnn, hd, e⟩
    · push Not at hcall
      obtain ⟨t, ht, hkeep⟩ := exec_keepsBounds hcall s.advance
      exact .inl ⟨t, e.trans ((execWith_of_ne hcall _).trans ht), hkeep⟩

/-- Every step keeps the invariant, under every parameter setting (R5, R24). -/
theorem stepWith_keepsInv {p : Params} {s t : State} (hs : s.InvWith p) (ht : stepWith p s = .next t) :
    t.InvWith p := by
  rcases stepWith_keepsBounds_or_call p s with ⟨u, e, hkeep⟩ | ⟨-, nnn, -, e⟩
  · cases e.symm.trans ht
    exact hkeep.invWith hs
  · exact callWith_keepsInv (s := s.advance) hs (e.symm.trans ht)

/-- A step faults for a full stack or answers a next state (R160; D6, log 5). -/
theorem stepWith_fault_or_next (p : Params) (s : State) :
    stepWith p s = .fault .stackFull ∨ ∃ t, stepWith p s = .next t := by
  rcases stepWith_keepsBounds_or_call p s with ⟨t, e, -⟩ | ⟨-, nnn, -, e⟩
  · exact .inr ⟨t, e⟩
  · exact e ▸ callWith_fault_or_next _ _ _

/-- A step faults exactly when it calls an even target on a full stack (R102; D6, log 5). -/
theorem stepWith_eq_fault_iff (p : Params) (s : State) :
    stepWith p s = .fault .stackFull ↔
      s.wait = .run ∧ ∃ nnn cap, s.decodedWith p = .instr (.call nnn) ∧ nnn.toNat % 2 = 0 ∧
        p.stackCap = some cap ∧ cap ≤ s.stack.length := by
  constructor
  · intro hf
    rcases stepWith_keepsBounds_or_call p s with ⟨t, e, -⟩ | ⟨hw, nnn, hd, e⟩
    · cases e.symm.trans hf
    · obtain ⟨heven, cap, hcap, hfull⟩ := (callWith_eq_fault_iff _ _ _).1 (e.symm.trans hf)
      exact ⟨hw, nnn, cap, hd, heven, hcap, hfull⟩
  · rintro ⟨hw, nnn, cap, hd, heven, hcap, hfull⟩
    exact (stepWith_instr hw hd).1.trans ((callWith_eq_fault_iff _ _ _).2 ⟨heven, cap, hcap, hfull⟩)

/-! ### Host operations and histories (R61, R168) -/

/-- Every host operation keeps the bounds: only a load and a write change memory, none the stack (R192, R193). -/
theorem State.host_keepsBounds (s : State) (op : HostOp) : s.KeepsBounds (s.host op) := by
  cases op with
  | load buf addr => exact ⟨s.load_wf buf addr, le_rfl⟩
  | write addr b => exact ⟨s.writeMem_wf addr b, le_rfl⟩
  | keyDown k =>
    show s.KeepsBounds (s.keyDown k)
    rcases Nat.lt_or_ge k 16 with hk | hk
    · cases hw : s.wait with
      | run => rw [keyDown_run hw]; exact .of_eq rfl rfl
      | waitKey x => rw [keyDown_waiting hw hk]; exact .of_eq rfl rfl
    · rw [s.keyDown_out_of_range hk]; exact .of_eq rfl rfl
  | cancel =>
    show s.KeepsBounds s.cancel
    cases hw : s.wait with
    | run => rw [cancel_run hw]; exact .of_eq rfl rfl
    | waitKey x => rw [cancel_waiting hw]; exact .of_eq rfl rfl
  | _ => exact .of_eq rfl rfl

/-- From a state that meets the invariant a move answers one that does, or faults for a full stack, which needs a finite
STACK_CAP. -/
theorem State.moveWith_keepsInv {p : Params} {s : State} (hs : s.InvWith p) (m : Move) :
    (∃ t, s.moveWith p m = .next t ∧ t.InvWith p) ∨
      (s.moveWith p m = .fault .stackFull ∧ p.stackCap ≠ none) := by
  cases m with
  | host op => exact .inl ⟨s.host op, rfl, (s.host_keepsBounds op).invWith hs⟩
  | step =>
    rcases stepWith_fault_or_next p s with hf | ⟨t, ht⟩
    · obtain ⟨-, nnn, cap, -, -, hcap, -⟩ := (stepWith_eq_fault_iff p s).1 hf
      exact .inr ⟨hf, by simp [hcap]⟩
    · exact .inl ⟨t, ht, stepWith_keepsInv hs ht⟩

/-- The induction over histories, from every state that meets the invariant. -/
theorem State.historyWith_keepsInv {p : Params} {s : State} (hs : s.InvWith p) (moves : List Move) :
    (∃ t, s.historyWith p moves = .next t ∧ t.InvWith p) ∨
      (s.historyWith p moves = .fault .stackFull ∧ p.stackCap ≠ none) := by
  induction moves generalizing s with
  | nil => exact .inl ⟨s, rfl, hs⟩
  | cons m moves ih =>
    rcases moveWith_keepsInv hs m with ⟨t, e, ht⟩ | ⟨e, hcap⟩
    · simpa [State.historyWith, e] using ih ht
    · exact .inr ⟨by simp [State.historyWith, e], hcap⟩

/-- The reset state: canonical memory, for a load from the empty list made it, and an empty stack (R35, R36, R40). -/
theorem State.resetWith_inv (p : Params) : (State.resetWith p).InvWith p :=
  ⟨Memory.wf_load _ _ Memory.wf_nil, fun c _ => Nat.zero_le c⟩

theorem State.history_of_infinite_stack {p : Params} (hcap : p.stackCap = none) (moves : List Move) :
    ∃ t, (State.resetWith p).historyWith p moves = .next t ∧ t.InvWith p :=
  (historyWith_keepsInv (State.resetWith_inv p) moves).resolve_right fun h => h.2 hcap

/-! ### The statements -/

/-- Settles O60: a call pushes below STACK_CAP only, and no other step makes the stack longer or memory non-canonical. -/
theorem everyStepKeepsTheInvariantOfItsParameters : Obligations.EveryStepKeepsTheInvariantOfItsParameters :=
  fun _ _ _ hs ht => stepWith_keepsInv hs ht

/-- Settles O56, by induction on the history. -/
theorem everyHistoryRunsAndKeepsTheInvariant : Obligations.EveryHistoryRunsAndKeepsTheInvariant := by
  refine ⟨fun p moves hcap => State.history_of_infinite_stack hcap moves, fun moves => ?_, fun p moves => ?_⟩
  · rw [State.reset_eq]
    exact State.history_of_infinite_stack (p := params) rfl moves
  · exact (State.historyWith_keepsInv (State.resetWith_inv p) moves).imp_right And.left

/-- Settles O59: every step but a call answers a next state, and a call faults exactly when its push has no room. -/
theorem stepFaultsExactlyOnAFullStack : Obligations.StepFaultsExactlyOnAFullStack :=
  fun p s => ⟨stepWith_eq_fault_iff p s, stepWith_fault_or_next p s⟩

/-- Settles O53: the reset state of this model is `State.resetWith` at its parameters. -/
theorem resetMeetsTheInvariant : Obligations.ResetMeetsTheInvariant :=
  ⟨State.resetWith_inv, State.reset_eq ▸ State.resetWith_inv params⟩

/-- Settles O58, one case of the step for each clause. -/
theorem stepUnderEveryParameterSetting : Obligations.StepUnderEveryParameterSetting := by
  refine ⟨fun p s => ⟨fun x hw => ?_, fun op hw hd => ?_, fun nnn hw hd => ?_, fun i hw hd hcall => ?_⟩,
    fun s => ⟨rfl, rfl⟩⟩
  · exact stepWith_waitKey p hw
  · rw [← decodeWith_unknown hd]
    exact stepWith_unknown hw hd
  · exact stepWith_instr hw hd
  · exact (stepWith_instr hw hd).1.trans (execWith_of_ne hcall _)

end Sys2Proof.Machine
end

section
/-! PROOFS of the statements about the state (10_state.md): the access table (R32), the places no step reads or none
changes, and the state after reset. -/

namespace Sys2Proof.Machine

/-! ### Call and return, case by case (R100, R102) -/

theorem execRet_of_nil {s : State} (h : s.stack = []) : execRet s = .next s := by
  simp [execRet, State.pop, h]

theorem execRet_of_cons {s : State} {w : Word} {rest : List Word} (h : s.stack = w :: rest) :
    execRet s = .next { s with pc := w, stack := rest } := by
  simp [execRet, State.pop, h]

/-- Under the STACK_CAP of this model, which is infinite, a call of an even target always has room (D6, log 5). -/
theorem execCall_of_even {nnn : Addr12} (h : nnn.toNat % 2 = 0) (s : State) :
    execCall nnn s = .next { s with pc := zextAddr nnn, stack := s.pc :: s.stack } := by
  simp [execCall, callWith, params, h]

theorem callWith_of_odd {nnn : Addr12} (h : nnn.toNat % 2 = 1) (cap : Option Nat) (s : State) :
    callWith cap nnn s = .next s := by
  simp [callWith, h]

@[simp] theorem zextAddr_toNat (nnn : Addr12) : (zextAddr nnn).toNat = nnn.toNat :=
  BitVec.toNat_setWidth_of_le (by decide)

theorem execCall_next (nnn : Addr12) (s : State) : ∃ t, execCall nnn s = .next t := by
  rcases Nat.mod_two_eq_zero_or_one nnn.toNat with heven | hodd
  · exact ⟨_, execCall_of_even heven s⟩
  · exact ⟨s, callWith_of_odd hodd _ s⟩

/-! ### The access table (R32) -/

/-- A place that is neither of the two an instruction may write. -/
theorem Place.ne_and_ne_of_or {p q r : Place} (h : (p == q || p == r) = false) : p ≠ q ∧ p ≠ r := by
  simpa using h

/-- A call changes PC and the stack at most, under every STACK_CAP (R102). -/
theorem callWith_frame {cap : Option Nat} {nnn : Addr12} {s t : State} (h : callWith cap nnn s = .next t) :
    Frame (.call nnn) s t := by
  intro p hp
  obtain ⟨hpc, hstack⟩ := Place.ne_and_ne_of_or hp
  rcases callWith_cases cap nnn s with ⟨-, -, e⟩ | ⟨-, -, e⟩ | ⟨-, e⟩
  · cases e.symm.trans h
    exact (sameAt_stack s (s.pc :: s.stack) hstack).trans (sameAt_pc _ _ hpc)
  · cases e.symm.trans h
  · cases e.symm.trans h
    exact sameAt.rfl'

/-- A return changes PC and the stack at most (R100). -/
theorem execRet_frame (s : State) : ∃ t, execRet s = .next t ∧ Frame .ret s t := by
  cases hstack : s.stack with
  | nil => exact ⟨s, execRet_of_nil hstack, fun p _ => sameAt.rfl'⟩
  | cons w rest =>
    refine ⟨_, execRet_of_cons hstack, fun p hp => ?_⟩
    obtain ⟨hpc, hplace⟩ := Place.ne_and_ne_of_or hp
    exact (sameAt_stack s rest hplace).trans (sameAt_pc _ w hpc)

/-- A difference changes its destination and VF at most, whether or not VF is the destination (R118). -/
theorem execSub_frame (x y : Reg) (s : State) : ∃ t, execSub x y s = .next t ∧ Frame (.sub x y) s t := by
  refine ⟨_, rfl, fun p hp => ?_⟩
  obtain ⟨hx, hflag⟩ := Place.ne_and_ne_of_or hp
  split_ifs
  · exact sameAt_setFlag s _ hflag
  · exact (sameAt_setFlag s _ hflag).trans (sameAt_setV _ x _ hx)

/-- A draw changes VF and the pixels of its box at most (R136). -/
theorem execDrw_frame (x y : Reg) (n : Nat) (s : State) : ∃ t, execDrw x y n s = .next t ∧ Frame (.drw x y n) s t := by
  refine ⟨_, rfl, fun p hp => ?_⟩
  have hflag : p ≠ .reg VF := by
    rintro rfl
    simp [mayWrite] at hp
  have hbox : ∀ r c, r < n → c < 8 → p ≠ .pixel (s.spriteRow y + r) (s.spriteCol x + c) := by
    rintro r c hr hc rfl
    exact of_decide_eq_false hp (by omega)
  exact (sameAt_setFlag s false hflag).trans (sameAt_drawRows _ _ n n _ hbox le_rfl hflag)

/-- FX33 changes the three bytes at I, I + 1, I + 2 at most (R128). -/
theorem execLdB_frame (x : Reg) (s : State) : ∃ t, execLdB x s = .next t ∧ Frame (.ldB x) s t := by
  refine ⟨_, rfl, fun p hp => ?_⟩
  have hbyte : ∀ k, k < 3 → p ≠ .byte (s.indexAddr k) := by
    rintro k hk rfl
    interval_cases k <;> simp [mayWrite] at hp
  exact ((sameAt_writeMem s _ _ (hbyte 0 (by omega))).trans (sameAt_writeMem _ _ _ (hbyte 1 (by omega)))).trans
    (sameAt_writeMem _ _ _ (hbyte 2 (by omega)))

/-- FX55 changes the bytes at I to I + X and the index register at most (R130). -/
theorem execStRegs_frame (x : Reg) (s : State) : ∃ t, execStRegs x s = .next t ∧ Frame (.stRegs x) s t := by
  refine ⟨_, rfl, fun p hp => ?_⟩
  have hindex : p ≠ .index := by
    rintro rfl
    simp [mayWrite] at hp
  have hbyte : ∀ k, k < x.val + 1 → p ≠ .byte (s.indexAddr 0 + k) := by
    rintro k hk rfl
    exact of_decide_eq_false hp (by simp only [State.indexAddr]; omega)
  exact (sameAt_storeRegs _ _ s hbyte).trans (sameAt_bumpIndex _ _ hindex)

/-- FX65 changes V0 to V[X] and the index register at most (R131). -/
theorem execLdRegs_frame (x : Reg) (s : State) : ∃ t, execLdRegs x s = .next t ∧ Frame (.ldRegs x) s t := by
  refine ⟨_, rfl, fun p hp => ?_⟩
  have hindex : p ≠ .index := by
    rintro rfl
    simp [mayWrite] at hp
  have hreg : ∀ r : Reg, r.val < x.val + 1 → p ≠ .reg r := by
    rintro r hr rfl
    exact of_decide_eq_false hp (Nat.le_of_lt_succ hr)
  exact (sameAt_loadRegs _ _ s x.isLt hreg).trans (sameAt_bumpIndex _ _ hindex)

/-- Every instruction answers a next state that differs from its own in the places of the access table at most (R32). -/
theorem exec_next_frame (i : Instr) (s : State) : ∃ t, exec i s = .next t ∧ Frame i s t := by
  cases i with
  | cls =>
    exact ⟨_, rfl, fun p hp => sameAt_clearScreen s (by rintro row col rfl; cases hp)⟩
  | ret => exact execRet_frame s
  | call nnn =>
    obtain ⟨t, ht⟩ := execCall_next nnn s
    exact ⟨t, ht, callWith_frame ht⟩
  | jp | jpV0 => exact ⟨_, rfl, fun p hp => sameAt_pc s _ (ne_of_beq_false hp)⟩
  | seImm | sneImm | seReg | sneReg | skp | sknp =>
    exact ⟨_, rfl, fun p hp => sameAt_skipIf s _ (ne_of_beq_false hp)⟩
  | ldImm x | addImm x | ldReg x | orReg x | andReg x | xorReg x | ldVxDt x =>
    exact ⟨_, rfl, fun p hp => sameAt_setV s x _ (ne_of_beq_false hp)⟩
  | addReg x y =>
    refine ⟨_, rfl, fun p hp => ?_⟩
    obtain ⟨hx, hflag⟩ := Place.ne_and_ne_of_or hp
    exact (sameAt_setV s x _ hx).trans (sameAt_setFlag _ _ hflag)
  | sub x y => exact execSub_frame x y s
  | shr x y | subn x y | shl x y =>
    refine ⟨_, rfl, fun p hp => ?_⟩
    obtain ⟨hy, hflag⟩ := Place.ne_and_ne_of_or hp
    exact (sameAt_setFlag s _ hflag).trans (sameAt_setV _ y _ hy)
  | rnd x nn =>
    refine ⟨_, rfl, fun p hp => ?_⟩
    obtain ⟨hx, hdraws⟩ := Place.ne_and_ne_of_or hp
    exact (sameAt_draws s _ hdraws).trans (sameAt_setV _ x _ hx)
  | drw x y n => exact execDrw_frame x y n s
  | ldVxK => exact ⟨_, rfl, fun p hp => sameAt_wait s _ (ne_of_beq_false hp)⟩
  | ldDtVx => exact ⟨_, rfl, fun p hp => sameAt_dt s _ (ne_of_beq_false hp)⟩
  | ldStVx => exact ⟨_, rfl, fun p hp => sameAt_st s _ (ne_of_beq_false hp)⟩
  | ldI | addI | ldF => exact ⟨_, rfl, fun p hp => sameAt_i s _ (ne_of_beq_false hp)⟩
  | ldB x => exact execLdB_frame x s
  | stRegs x => exact execStRegs_frame x s
  | ldRegs x => exact execLdRegs_frame x s

/-- The frame of an instruction at the state it is known to answer (R32). -/
theorem exec_frame {i : Instr} {s t : State} (h : exec i s = .next t) : Frame i s t := by
  obtain ⟨u, hu, hframe⟩ := exec_next_frame i s
  cases hu.symm.trans h
  exact hframe

/-! ### The sound timer is read by no operation (R27, R150) -/

/-- The state with another value of the sound timer. -/
def State.withSound (s : State) (b : Byte) : State := { s with st := b }

@[simp] theorem State.withSound_getPixel (s : State) (b : Byte) (row col : Nat) :
    (s.withSound b).getPixel row col = s.getPixel row col := rfl

@[simp] theorem State.withSound_readMem (s : State) (b : Byte) (a : Nat) :
    (s.withSound b).readMem a = s.readMem a := rfl

@[simp] theorem State.withSound_indexAddr (s : State) (b : Byte) (k : Nat) :
    (s.withSound b).indexAddr k = s.indexAddr k := rfl

@[simp] theorem State.skipIf_withSound (s : State) (b : Byte) (c : Bool) :
    (s.withSound b).skipIf c = (s.skipIf c).withSound b := by
  cases c <;> rfl

@[simp] theorem State.drawBit_withSound (row col : Nat) (bit : Bool) (s : State) (b : Byte) :
    (s.withSound b).drawBit row col bit = (s.drawBit row col bit).withSound b := by
  simp only [State.drawBit, State.withSound_getPixel, apply_ite (State.withSound · b)]
  rfl

@[simp] theorem State.drawCols_withSound (row x0 : Nat) (byte : Byte) (left : Nat) (s : State) (b : Byte) :
    State.drawCols row x0 byte left (s.withSound b) = (State.drawCols row x0 byte left s).withSound b := by
  induction left generalizing s with
  | zero => rfl
  | succ left ih =>
    simp only [State.drawCols, State.drawBit_withSound, ih]
    split_ifs <;> rfl

@[simp] theorem State.drawRows_withSound (x0 y0 n left : Nat) (s : State) (b : Byte) :
    State.drawRows x0 y0 n left (s.withSound b) = (State.drawRows x0 y0 n left s).withSound b := by
  induction left generalizing s with
  | zero => rfl
  | succ left ih =>
    simp only [State.drawRows, State.withSound_indexAddr, State.withSound_readMem, State.drawCols_withSound, ih]
    split_ifs <;> rfl

@[simp] theorem State.storeRegs_withSound (base n : Nat) (s : State) (b : Byte) :
    State.storeRegs base n (s.withSound b) = (State.storeRegs base n s).withSound b := by
  induction n with
  | zero => rfl
  | succ n ih =>
    simp only [State.storeRegs, ih]
    rfl

@[simp] theorem State.loadRegs_withSound (base n : Nat) (s : State) (b : Byte) :
    State.loadRegs base n (s.withSound b) = (State.loadRegs base n s).withSound b := by
  induction n with
  | zero => rfl
  | succ n ih =>
    simp only [State.loadRegs, ih]
    rfl

/-- Two answers that are next states, and differ in the sound timer alone. -/
def Result.SameButSound (r r' : Result) : Prop := ∃ t after, r = .next t ∧ r' = .next (t.withSound after)

theorem Result.SameButSound.of_eq {t u : State} {after : Byte} (h : u = t.withSound after) :
    Result.SameButSound (.next t) (.next u) :=
  ⟨t, after, rfl, congrArg _ h⟩

theorem execRet_withSound (s : State) (b : Byte) : Result.SameButSound (execRet s) (execRet (s.withSound b)) := by
  cases hstack : s.stack with
  | nil => exact ⟨s, b, execRet_of_nil hstack, execRet_of_nil hstack⟩
  | cons w rest => exact ⟨_, b, execRet_of_cons hstack, execRet_of_cons hstack⟩

theorem execCall_withSound (nnn : Addr12) (s : State) (b : Byte) :
    Result.SameButSound (execCall nnn s) (execCall nnn (s.withSound b)) := by
  rcases Nat.mod_two_eq_zero_or_one nnn.toNat with heven | hodd
  · exact ⟨_, b, execCall_of_even heven s, execCall_of_even heven _⟩
  · exact ⟨s, b, callWith_of_odd hodd _ s, callWith_of_odd hodd _ _⟩

theorem execSub_withSound (x y : Reg) (s : State) (b : Byte) :
    Result.SameButSound (execSub x y s) (execSub x y (s.withSound b)) := by
  refine .of_eq (after := b) ?_
  split_ifs <;> rfl

/-- No instruction reads the sound timer: from two states that differ in it alone each answers two such states. FX18 alone
writes it, and makes the two equal (R27, R150). -/
theorem exec_withSound (i : Instr) (s : State) (b : Byte) :
    Result.SameButSound (exec i s) (exec i (s.withSound b)) := by
  cases i with
  | ret => exact execRet_withSound s b
  | call nnn => exact execCall_withSound nnn s b
  | sub x y => exact execSub_withSound x y s b
  | seImm | sneImm | seReg | sneReg | skp | sknp => exact .of_eq (s.skipIf_withSound b _)
  | drw x y n => exact .of_eq (State.drawRows_withSound _ _ _ _ (s.setFlag false) b)
  | stRegs x => exact .of_eq (congrArg (State.bumpIndex · _) (State.storeRegs_withSound _ _ s b))
  | ldRegs x => exact .of_eq (congrArg (State.bumpIndex · _) (State.loadRegs_withSound _ _ s b))
  | ldStVx x => exact ⟨_, s.getV x, rfl, rfl⟩
  | _ => exact ⟨_, b, rfl, rfl⟩

/-- No step reads the sound timer, nor does its result depend on it. -/
theorem step_withSound (s : State) (b : Byte) :
    stepResult (s.withSound b) = stepResult s ∧ Result.SameButSound (step s) (step (s.withSound b)) := by
  refine ⟨rfl, ?_⟩
  rcases step_cases s with ⟨x, hw, e, -⟩ | ⟨hw, op, hd, e, -⟩ | ⟨hw, i, hd, e, -⟩
  · exact ⟨s, b, e, (stepWith_waitKey params (s := s.withSound b) hw).1⟩
  · exact ⟨s.advance, b, e, (stepWith_unknown (p := params) (s := s.withSound b) hw hd).1⟩
  · have e' : step (s.withSound b) = exec i (s.advance.withSound b) :=
      (stepWith_instr (p := params) (s := s.withSound b) hw hd).1.trans (execWith_params i _)
    rw [e, e']
    exact exec_withSound i s.advance b

/-! ### PC outside memory (R23) -/

/-- With PC outside memory the fetched word is 0x0000 (R23, R51). -/
theorem State.fetchWord_out_of_range {s : State} (h : 4096 ≤ s.pc.toNat) : s.fetchWord = 0 := by
  rw [State.fetchWord, s.readMem_out_of_range _ h, s.readMem_out_of_range _ (by omega)]
  rfl

theorem State.advance_pc_toNat (s : State) : s.advance.pc.toNat = (s.pc.toNat + 2) % 65536 :=
  BitVec.toNat_add s.pc 2

/-! ### The random byte (R30) -/

/-- CXNN puts the drawn byte under the mask in V[X], and consumes one draw (R122). -/
theorem execRnd_next (x : Reg) (nn : Byte) (s : State) : ∃ t, exec (.rnd x nn) s = .next t ∧
    t.getV x = Config.draw s.draws &&& nn ∧ t.draws = s.draws + 1 :=
  ⟨_, rfl, State.getV_setV_self _ x _, rfl⟩

/-! ### The statements -/

/-- Settles O54: the frame of every instruction, assembled from the frames of the operations it calls. -/
theorem accessTableBoundsEveryInstruction : Obligations.AccessTableBoundsEveryInstruction :=
  fun _ _ _ h => exec_frame h

/-- Settles O55: the step lemma of the invariant (O60) at the parameters of this model. -/
theorem everyStepKeepsTheInvariant : Obligations.EveryStepKeepsTheInvariant :=
  fun _ _ hs ht => stepWith_keepsInv (p := params) hs ht

/-- Settles O11: the word fetched outside memory is 0x0000, which is an unknown opcode, and PC has 16 bits. -/
theorem stepOutsideMemoryOnlyClimbs : Obligations.StepOutsideMemoryOnlyClimbs := by
  intro s hw hpc
  have hd : s.decodedWith params = .unknown 0x0000 := by
    rw [State.decodedWith, State.fetchWord_out_of_range hpc]
    rfl
  obtain ⟨hstep, hresult⟩ := stepWith_unknown hw hd
  refine ⟨hresult, s.advance, hstep, fun p hp => sameAt_pc s _ (by simpa using hp), ?_⟩
  rw [State.advance_pc_toNat]
  have := s.pc.isLt
  split_ifs <;> omega

/-- Settles O57: no operation an instruction calls reads the sound timer. -/
theorem soundTimerInfluencesNothing : Obligations.SoundTimerInfluencesNothing :=
  fun s value => step_withSound s value

/-- Settles O21: a push on a full stack is the one thing a call can fail on. -/
theorem callUnderACapFaultsWhenFull : Obligations.CallUnderACapFaultsWhenFull := by
  refine fun cap nnn s => ⟨fun heven hfull => ?_, fun heven hroom => ?_, fun hodd => ?_⟩
  · exact (callWith_eq_fault_iff _ _ _).2 ⟨heven, cap, rfl, hfull⟩
  · rcases callWith_cases (some cap) nnn s with ⟨-, -, e⟩ | ⟨-, ⟨c, hc, hfull⟩, -⟩ | ⟨hodd, -⟩
    · exact ⟨_, e, zextAddr_toNat nnn, rfl, callWith_frame e⟩
    · cases hc
      omega
    · omega
  · exact callWith_of_odd hodd _ s

/-- Settles O32: the drawn byte under the mask has no bit of the mask's complement, whatever the draw. -/
theorem randomByteIsMasked : Obligations.RandomByteIsMasked := by
  intro x nn s
  obtain ⟨t, ht, hx, hdraws⟩ := execRnd_next x nn s
  refine ⟨t, ht, exec_frame ht, hx, ?_, ?_, hdraws⟩
  · simp [hx, BitVec.and_assoc]
  · rintro rfl
    simp [hx]

/-- Settles O47: a byte other than 0 counts down, 0 stays, and a tick writes its own timer alone. -/
theorem ticksCountDownToZero : Obligations.TicksCountDownToZero :=
  fun s => ⟨⟨tick_toNat s.dt, fun p hp => sameAt_dt s _ (by simpa using hp)⟩,
    ⟨tick_toNat s.st, fun p hp => sameAt_st s _ (by simpa using hp)⟩⟩

/-- Settles O51: the font is loaded into zero memory. -/
theorem resetMemoryIsZeroAndTheFont : Obligations.ResetMemoryIsZeroAndTheFont := by
  refine fun p => ⟨fun a ha hfont => ?_, fun i hi => ?_⟩
  · rw [State.resetWith_readMem p a ha]
    split_ifs with h
    · have : 80 ≤ a - 0x050 := by omega
      simp [this]
    · rfl
  · rw [State.resetWith_readMem p _ (by omega)]
    simp [hi]

/-- Settles O52: each place of the reset state is made of constants, PC of RESET_PC. -/
theorem resetClearsEverythingElse : Obligations.ResetClearsEverythingElse := by
  refine ⟨State.reset_eq, fun p => ⟨_, rfl, fun r => ?_, rfl, rfl, rfl, ?_, ?_, rfl, rfl, fun k => ?_, rfl⟩⟩
  · simp [State.getV, State.resetWith, State.initial]
  · exact State.getPixel_clearScreen (State.resetWith p)
  · exact (State.isClear_iff _).2 (State.getPixel_clearScreen (State.resetWith p))
  · by_cases hk : k < 16
    · simp [State.key, State.resetWith, State.initial, hk]
    · exact State.key_out_of_range _ k (by omega)

end Sys2Proof.Machine
end

section
/-! PROOFS of the statements about memory and the framebuffer (20_memory.md): what is read after a write, the canonical
form of memory, the word fetched, and what FX33, FX55, DXYN and the host's setters write. -/

namespace Sys2Proof.Machine

/-! ### Memory (R50 to R52) -/

/-- A byte written at 4096 or more is dropped (R52). -/
theorem State.writeMem_out_of_range (s : State) {a : Nat} (b : Byte) (h : 4096 ≤ a) : s.writeMem a b = s := by
  rw [State.writeMem, Memory.write_out_of_range s.mem a b h]

/-- A canonical memory lists exactly the cells below 4096 that read as something else than unlisted (log 7). -/
theorem Memory.mem_iff_read {m : List Host.Cell} (h : Memory.wf m) (a : Nat) (c : Byte) :
    (a, c) ∈ m ↔ a < 4096 ∧ c ≠ Memory.unlisted a ∧ Memory.read m a = c := by
  constructor
  · intro hmem
    obtain ⟨ha, hc⟩ := h.2 _ hmem
    have hfind := (Memory.find_eq_some_iff h.1 a c).2 hmem
    exact ⟨ha, hc, by simp [Memory.read, ha, hfind]⟩
  · rintro ⟨ha, hc, hread⟩
    rw [Memory.read, if_pos ha] at hread
    cases hfind : Memory.find a m with
    | none => exact absurd (by simpa [hfind] using hread.symm) hc
    | some d =>
      have hdc : d = c := by simpa [hfind] using hread
      exact (Memory.find_eq_some_iff h.1 a c).1 (hdc ▸ hfind)

/-- Cells at rising addresses are all different. -/
theorem Memory.nodup_of_rising {m : List Host.Cell} (h : m.Pairwise (fun p q => p.1 < q.1)) : m.Nodup :=
  h.imp fun hlt heq => hlt.ne (congrArg Prod.fst heq)

/-- Two lists of the same cells, both at rising addresses, are the same list. -/
theorem Memory.eq_of_rising {m m' : List Host.Cell} (h : m.Pairwise (fun p q => p.1 < q.1))
    (h' : m'.Pairwise (fun p q => p.1 < q.1)) (hmem : ∀ cell, cell ∈ m ↔ cell ∈ m') : m = m' :=
  ((List.perm_ext_iff_of_nodup (Memory.nodup_of_rising h) (Memory.nodup_of_rising h')).2 hmem).eq_of_pairwise
    (fun _ _ _ _ hlt hgt => absurd hlt hgt.asymm) h h'

/-! ### The word at PC (R55, R91) -/

theorem State.fetchWord_toNat (s : State) :
    s.fetchWord.toNat = 256 * (s.readMem s.pc.toNat).toNat + (s.readMem (s.pc.toNat + 1)).toNat :=
  wordOfBytes_toNat _ _

@[simp] theorem State.storeRegs_pc (base n : Nat) (s : State) : (State.storeRegs base n s).pc = s.pc :=
  sameAt_storeRegs (p := .pc) base n s (by simp)

@[simp] theorem State.storeRegs_wait (base n : Nat) (s : State) : (State.storeRegs base n s).wait = s.wait :=
  sameAt_storeRegs (p := .wait) base n s (by simp)

/-- V0 and V1, stored at PC among other registers, are the word at PC (R63, R130). -/
theorem State.fetchWord_storeRegs (s : State) {n : Nat} (hn : 2 ≤ n) (hpc : s.pc.toNat + 1 < 4096) :
    (State.storeRegs s.pc.toNat n s).fetchWord = wordOfBytes (s.getV 0) (s.getV 1) := by
  rw [State.fetchWord, State.storeRegs_pc, State.readMem_storeRegs, State.readMem_storeRegs, if_pos (by omega),
    if_pos (by omega), Nat.sub_self, Nat.add_sub_cancel_left]

/-! ### A pixel written in range (R65) -/

theorem State.getPixel_setPixel_self (s : State) {row col : Nat} (b : Bool) (hr : row < 32) (hc : col < 64) :
    (s.setPixel row col b).getPixel row col = b := by
  rw [State.getPixel_setPixel, if_pos ⟨rfl, rfl, hr, hc⟩]

theorem State.isClear_setPixel_true (s : State) {row col : Nat} (hr : row < 32) (hc : col < 64) :
    (s.setPixel row col true).isClear = false := by
  refine Bool.eq_false_iff.2 fun hclear => ?_
  have hpixel := (State.isClear_iff _).1 hclear row col
  simp [s.getPixel_setPixel_self true hr hc] at hpixel

/-! ### The decimal digits (R128) -/

theorem bcdHundreds_toNat (a : Byte) : (bcdHundreds a).toNat = a.toNat / 100 := BitVec.toNat_udiv

theorem bcdTens_toNat (a : Byte) : (bcdTens a).toNat = a.toNat / 10 % 10 := by
  simp [bcdTens]

theorem bcdOnes_toNat (a : Byte) : (bcdOnes a).toNat = a.toNat % 10 := BitVec.toNat_umod

/-- FX33 stores each digit that has an address below 4096 (R128). -/
theorem execLdB_readMem (x : Reg) (s : State) : ∃ t, exec (.ldB x) s = .next t ∧
    (s.indexAddr 0 < 4096 → t.readMem (s.indexAddr 0) = bcdHundreds (s.getV x)) ∧
    (s.indexAddr 1 < 4096 → t.readMem (s.indexAddr 1) = bcdTens (s.getV x)) ∧
    (s.indexAddr 2 < 4096 → t.readMem (s.indexAddr 2) = bcdOnes (s.getV x)) := by
  refine ⟨_, rfl, ?_⟩
  have h01 : s.indexAddr 1 ≠ s.indexAddr 0 := by simp [State.indexAddr]
  have h02 : s.indexAddr 2 ≠ s.indexAddr 0 := by simp [State.indexAddr]
  have h12 : s.indexAddr 2 ≠ s.indexAddr 1 := by simp [State.indexAddr]
  simp +contextual [State.readMem_writeMem, h01, h02, h12]

/-! ### DXYN (R136, R137) -/

/-- What a draw answers: the rows drawn from the wrapped origin, after VF has been cleared. -/
theorem execDrw_eq (x y : Reg) (n : Nat) (s : State) :
    exec (.drw x y n) s = .next (State.drawRows (s.spriteCol x) (s.spriteRow y) n n (s.setFlag false)) := rfl

/-- A pixel of the sprite's box after the whole sprite has been drawn (R137). -/
theorem State.getPixel_drawRows_box (x0 y0 n : Nat) (s : State) {r c : Nat} (hr : r < n) (hc : c < 8)
    (hrow : y0 + r < 32) (hcol : x0 + c < 64) :
    (State.drawRows x0 y0 n n s).getPixel (y0 + r) (x0 + c) =
      (s.getPixel (y0 + r) (x0 + c) ^^ spriteBit (s.readMem (s.i.toNat + r)) c) := by
  rw [State.getPixel_drawRows x0 y0 n n le_rfl, if_pos (by omega), Nat.add_sub_cancel_left, Nat.add_sub_cancel_left]

/-- Some set bit of the sprite stands, inside the screen, over a set pixel (R137). -/
def State.Collides (x0 y0 n : Nat) (s : State) : Prop :=
  ∃ r c, r < n ∧ c < 8 ∧ y0 + r < 32 ∧ x0 + c < 64 ∧ s.getPixel (y0 + r) (x0 + c) = true ∧
    spriteBit (s.readMem (s.i.toNat + r)) c = true

theorem State.getV_drawRows_of_collides {x0 y0 n : Nat} {s : State} (h : s.Collides x0 y0 n) :
    (State.drawRows x0 y0 n n s).getV 15 = 1 := by
  obtain ⟨r, c, hr, hrest⟩ := h
  exact (State.getV_drawRows x0 y0 n n le_rfl s).1 ⟨r, c, by omega, hr, hrest⟩

theorem State.getV_drawRows_of_not_collides {x0 y0 n : Nat} {s : State} (h : ¬ s.Collides x0 y0 n) :
    (State.drawRows x0 y0 n n s).getV 15 = s.getV 15 :=
  (State.getV_drawRows x0 y0 n n le_rfl s).2 fun ⟨r, c, _, hrest⟩ => h ⟨r, c, hrest⟩

/-- VF, cleared before the sprite is drawn, is then 1 exactly on a collision, else 0 (R137). -/
theorem State.getV_drawRows_setFlag (x0 y0 n : Nat) (s : State) :
    ((State.drawRows x0 y0 n n (s.setFlag false)).getV 15 = 0 ∨
        (State.drawRows x0 y0 n n (s.setFlag false)).getV 15 = 1) ∧
      ((State.drawRows x0 y0 n n (s.setFlag false)).getV 15 = 1 ↔ s.Collides x0 y0 n) := by
  by_cases h : (s.setFlag false).Collides x0 y0 n
  · have hflag := State.getV_drawRows_of_collides h
    exact ⟨.inr hflag, fun _ => h, fun _ => hflag⟩
  · have hflag : (State.drawRows x0 y0 n n (s.setFlag false)).getV 15 = 0 := by
      rw [State.getV_drawRows_of_not_collides h, State.getV_setFlag_VF]
      rfl
    exact ⟨.inl hflag, fun h1 => absurd (hflag.symm.trans h1) (by decide), fun h1 => absurd h1 h⟩

/-! ### The statements -/

/-- Settles O40: the loops flip the sprite's box, from the origin read before VF is cleared, and set VF on a collision. -/
theorem drawIsXorWithCollision : Obligations.DrawIsXorWithCollision := by
  intro x y n s
  obtain ⟨hbit, hcollision⟩ := State.getV_drawRows_setFlag (s.spriteCol x) (s.spriteRow y) n s
  exact ⟨_, execDrw_eq x y n s, exec_frame (execDrw_eq x y n s),
    fun r c hr hc hrow hcol => State.getPixel_drawRows_box _ _ n (s.setFlag false) hr hc hrow hcol, hbit, hcollision⟩

/-- Settles O7: the fetch joins two bytes, each read on its own, the first above the second. -/
theorem fetchIsBigEndianAndRangeChecked : Obligations.FetchIsBigEndianAndRangeChecked := by
  refine fun s => ⟨s.fetchWord_toNat, fun hpc => ?_, fun hpc => State.fetchWord_out_of_range hpc⟩
  rw [State.fetchWord_toNat, hpc, s.readMem_out_of_range (4095 + 1) le_rfl]
  rfl

/-- Settles O16: what a read gives after a write, by address, and the frame of a write. -/
theorem memoryReadAndWriteContract : Obligations.MemoryReadAndWriteContract := by
  refine fun s a b => ⟨fun ha => ?_, fun a' hne => ?_, fun p hp => ?_, fun ha => ?_⟩
  · rw [State.readMem_writeMem, if_pos ⟨rfl, ha⟩]
  · rw [State.readMem_writeMem, if_neg fun h => hne h.1.symm]
  · exact sameAt_writeMem s a b (by simpa using hp)
  · exact ⟨s.readMem_out_of_range a ha, s.writeMem_out_of_range b ha⟩

/-- Settles O17: the cells a canonical memory lists are determined by what it reads as, and their order by their
addresses. -/
theorem canonicalMemoryIsDeterminedByItsBytes : Obligations.CanonicalMemoryIsDeterminedByItsBytes := by
  intro m m' h h' hread
  refine Memory.eq_of_rising h.1 h'.1 fun ⟨a, c⟩ => ?_
  rw [Memory.mem_iff_read h, Memory.mem_iff_read h', hread]

/-- Settles O18: what a pixel is after a write and after Clear, and IsClear as a statement about every pixel. -/
theorem framebufferContract : Obligations.FramebufferContract := by
  intro s row col b
  refine ⟨s.getPixel_setPixel_self b, fun r c hne => ?_, fun hout => ⟨s.getPixel_out_of_range row col hout, fun r c => ?_⟩,
    (State.isClear_iff _).2 s.getPixel_clearScreen, s.isClear_iff, s.isClear_setPixel_true⟩
  · exact sameAt_setPixel (p := .pixel r c) s row col b (by simpa using hne)
  · rw [State.getPixel_setPixel, if_neg]
    rintro ⟨rfl, rfl, hin⟩
    exact hout hin

/-- Settles O34: the digits are the quotients and remainders by 100 and 10. -/
theorem bcdStoresTheThreeDigits : Obligations.BcdStoresTheThreeDigits := by
  intro x s
  obtain ⟨t, ht, hbytes⟩ := execLdB_readMem x s
  have hlt := (s.getV x).isLt
  refine ⟨t, ht, exec_frame ht, bcdHundreds (s.getV x), bcdTens (s.getV x), bcdOnes (s.getV x), ?_, ?_, ?_, ?_, hbytes⟩
  all_goals
    simp only [bcdHundreds_toNat, bcdTens_toNat, bcdOnes_toNat]
    omega

/-- Settles O38: I is the PC the fetch left, so that FX55 stores V0 and V1 where the next fetch reads. -/
theorem storedWordIsFetchedNext : Obligations.StoredWordIsFetchedNext := by
  intro s x hw hd hx hi hroom
  have hpc : s.advance.pc.toNat = s.pc.toNat + 2 := by
    rw [State.advance_pc_toNat]
    omega
  have hbase : s.advance.indexAddr 0 = s.advance.pc.toNat := hi.trans hpc.symm
  have hstep : step s = exec (.stRegs x) s.advance := (stepWith_instr (p := params) hw hd).1.trans (execWith_params _ _)
  refine ⟨_, hstep, ?_, ?_⟩
  · rw [State.bumpIndex_wait, State.storeRegs_wait, State.advance_wait, hw]
  · rw [hbase]
    exact State.fetchWord_storeRegs s.advance (by omega) (by omega)

/-- Settles O50: each setter is one write of the value at the width of its register. -/
theorem settersWriteOneItemReduced : Obligations.SettersWriteOneItemReduced := by
  intro s x n value
  refine ⟨⟨?_, fun p hp => sameAt_setV s x _ (by simpa using hp)⟩,
    fun hn => ⟨s.setV_out_of_range n _ hn, s.getV_out_of_range n hn⟩,
    ⟨BitVec.toNat_ofNat value 16, fun p hp => sameAt_i s _ (by simpa using hp)⟩,
    ⟨BitVec.toNat_ofNat value 16, fun p hp => sameAt_pc s _ (by simpa using hp)⟩⟩
  rw [State.host, State.getV_setV_self, BitVec.toNat_ofNat]

end Sys2Proof.Machine
end

section
/-! PROOFS of the statements about the encoding (30_encoding.md): the encoder's word of what the decoder reads, the
words STRICT_DECODE changes, the unknown opcodes, and the opcode map, from which decode after encode follows. -/

namespace Sys2Proof

open Machine

/-! ### The encoder's word of a word's own fields (R86), one lemma per format (R72) -/

/-- A word is known by N1, N2 and its low byte. -/
theorem word_ext {op w : Word} (h1 : nibble1 op = nibble1 w) (h2 : nibble2 op = nibble2 w)
    (hnn : fieldNN op = fieldNN w) : op = w := by
  rw [← word_of_x_nn op, ← word_of_x_nn w, placeX_fieldX, placeX_fieldX, h1, h2, hnn]

theorem encodeA_fields {op p : Word} {a : BitVec 4} (h1 : nibble1 op = a) (hp : p = a.setWidth 16 <<< 12) :
    encodeA p (fieldNNN op) = op := by
  rw [hp, ← h1]
  exact word_of_nnn op

theorem encodeI_fields {op p : Word} {a : BitVec 4} (h1 : nibble1 op = a) (hp : p = a.setWidth 16 <<< 12) :
    encodeI p (fieldX op) (fieldNN op) = op := by
  rw [hp, ← h1]
  exact word_of_x_nn op

theorem ofNat_fieldN (op : Word) : BitVec.ofNat 16 (fieldN op) = (nibble4 op).setWidth 16 :=
  BitVec.ofNat_toNat 16 (nibble4 op)

theorem encodeD_fields {op p : Word} {a : BitVec 4} (h1 : nibble1 op = a) (hp : p = a.setWidth 16 <<< 12) :
    encodeD p (fieldX op) (fieldY op) (fieldN op) = op := by
  rw [hp, ← h1, encodeD, ofNat_fieldN]
  exact word_of_nibbles op

theorem word_or_right_comm (a b c : Word) : a ||| b ||| c = a ||| c ||| b := by
  rw [BitVec.or_assoc, BitVec.or_comm b, BitVec.or_assoc]

theorem encodeR_fields {op p : Word} {a b : BitVec 4} (h1 : nibble1 op = a) (h4 : nibble4 op = b)
    (hp : p = a.setWidth 16 <<< 12 ||| b.setWidth 16) : encodeD p (fieldX op) (fieldY op) 0 = op := by
  conv_rhs => rw [← word_of_nibbles op, h1, h4]
  rw [encodeD, hp, BitVec.or_zero, word_or_right_comm _ (b.setWidth 16), word_or_right_comm _ (b.setWidth 16)]

theorem encodeK_fields {op p : Word} {a : BitVec 4} {b : Byte} (h1 : nibble1 op = a) (hnn : fieldNN op = b)
    (hp : p = a.setWidth 16 <<< 12 ||| b.setWidth 16) : encodeK p (fieldX op) = op := by
  conv_rhs => rw [← word_of_x_nn op, h1, hnn]
  rw [encodeK, hp, word_or_right_comm]

/-! ### The decoder in the families that hold unknown opcodes (R75 to R80) -/

theorem decodeWith_family0 {op : Word} (h1 : nibble1 op = 0x0) (strict : Bool) :
    decodeWith strict op = decodeFamily0 strict op := by
  rw [decodeWith, h1]
  rfl

theorem decodeWith_family5 {op : Word} (h1 : nibble1 op = 0x5) (strict : Bool) :
    decodeWith strict op = decodeZeroN4 strict op (.seReg (fieldX op) (fieldY op)) := by
  rw [decodeWith, h1]
  rfl

theorem decodeWith_family8 {op : Word} (h1 : nibble1 op = 0x8) (strict : Bool) :
    decodeWith strict op = decodeFamily8 op := by
  rw [decodeWith, h1]
  rfl

theorem decodeWith_family9 {op : Word} (h1 : nibble1 op = 0x9) (strict : Bool) :
    decodeWith strict op = decodeZeroN4 strict op (.sneReg (fieldX op) (fieldY op)) := by
  rw [decodeWith, h1]
  rfl

theorem decodeWith_familyE {op : Word} (h1 : nibble1 op = 0xE) (strict : Bool) :
    decodeWith strict op = decodeFamilyE op := by
  rw [decodeWith, h1]
  rfl

theorem decodeWith_familyF {op : Word} (h1 : nibble1 op = 0xF) (strict : Bool) :
    decodeWith strict op = decodeFamilyF op := by
  rw [decodeWith, h1]
  rfl

/-- STRICT_DECODE is read in families 0, 5 and 9 alone (R79), branches `h_1`, `h_6` and `h_10` of the decoder. -/
theorem decodeWith_strict_irrelevant {op : Word} (h0 : nibble1 op ≠ 0x0) (h5 : nibble1 op ≠ 0x5)
    (h9 : nibble1 op ≠ 0x9) (strict strict' : Bool) : decodeWith strict op = decodeWith strict' op := by
  unfold decodeWith
  split
  case h_1 | h_6 | h_10 => contradiction
  all_goals rfl

/-! ### The unknown opcodes, family by family (R80) -/

/-- In the ten families of a single instruction without a zero nibble every word is that instruction. -/
theorem decodeWith_ne_unknown {op : Word} (h : nibble1 op ∉ [0x0#4, 0x5, 0x8, 0x9, 0xE, 0xF]) (strict : Bool)
    (w : Word) : decodeWith strict op ≠ .unknown w := by
  have single : ∀ n : BitVec 4, n ∉ [0x0#4, 0x5, 0x8, 0x9, 0xE, 0xF] →
      n = 0x1 ∨ n = 0x2 ∨ n = 0x3 ∨ n = 0x4 ∨ n = 0x6 ∨ n = 0x7 ∨ n = 0xA ∨ n = 0xB ∨ n = 0xC ∨ n = 0xD := by decide
  rcases single _ h with h1 | h1 | h1 | h1 | h1 | h1 | h1 | h1 | h1 | h1 <;> rw [decodeWith, h1] <;> exact nofun

theorem decodeFamily0_other {op : Word} (hE0 : fieldNN op ≠ 0xE0) (hEE : fieldNN op ≠ 0xEE) (strict : Bool) :
    decodeFamily0 strict op = .unknown op := by
  unfold decodeFamily0
  split
  · rfl
  · split
    case h_1 | h_2 => contradiction
    rfl

theorem decodeFamily0_unknown_iff {op : Word} (h1 : nibble1 op = 0x0) :
    decodeFamily0 true op = .unknown op ↔ op ≠ 0x00E0 ∧ op ≠ 0x00EE := by
  constructor
  · intro h
    constructor <;> rintro rfl <;> cases h
  · rintro ⟨hE0, hEE⟩
    by_cases h2 : nibble2 op = 0#4
    · exact decodeFamily0_other (fun hnn => hE0 (word_ext h1 h2 hnn)) (fun hnn => hEE (word_ext h1 h2 hnn)) true
    · simp [decodeFamily0, h2]

theorem decodeZeroN4_unknown_iff (op : Word) (i : Instr) :
    decodeZeroN4 true op i = .unknown op ↔ nibble4 op ≠ 0 := by
  simp [decodeZeroN4]

theorem nibble_outside_family8 : ∀ n : BitVec 4, n ∉ [0x0#4, 0x1, 0x2, 0x3, 0x4, 0x5, 0x6, 0x7, 0xE] →
    n ∈ [0x8#4, 0x9, 0xA, 0xB, 0xC, 0xD, 0xF] := by decide

theorem decodeFamily8_unknown_iff (op : Word) :
    decodeFamily8 op = .unknown op ↔ nibble4 op ∈ [0x8#4, 0x9, 0xA, 0xB, 0xC, 0xD, 0xF] := by
  unfold decodeFamily8
  split
  case h_10 => exact iff_of_true rfl (nibble_outside_family8 _ (by simp_all))
  all_goals simp_all

theorem decodeFamilyE_unknown_iff (op : Word) : decodeFamilyE op = .unknown op ↔ fieldNN op ∉ [0x9E#8, 0xA1] := by
  unfold decodeFamilyE
  split <;> simp_all

theorem decodeFamilyF_unknown_iff (op : Word) :
    decodeFamilyF op = .unknown op ↔ fieldNN op ∉ [0x07#8, 0x0A, 0x15, 0x18, 0x1E, 0x29, 0x33, 0x55, 0x65] := by
  unfold decodeFamilyF
  split <;> simp_all

/-! ### A decoded word is the encoder's word of its instruction, family by family (R85, R86) -/

theorem encode_of_decodeFamily0 {op : Word} {i : Instr} (h1 : nibble1 op = 0x0) (h : decodeFamily0 true op = .instr i) :
    i.wellFormed = true ∧ encode i = op := by
  unfold decodeFamily0 at h
  split at h
  next => cases h
  next hzero =>
    have h2 : nibble2 op = 0 := by simpa using hzero
    split at h <;> cases h
    next hnn => exact ⟨rfl, (word_ext h1 h2 hnn).symm⟩
    next hnn => exact ⟨rfl, (word_ext h1 h2 hnn).symm⟩

theorem decodeZeroN4_eq_instr {op : Word} {i j : Instr} (h : decodeZeroN4 true op i = .instr j) :
    nibble4 op = 0 ∧ i = j := by
  unfold decodeZeroN4 at h
  split at h
  next => cases h
  next hzero => exact ⟨by simpa using hzero, Decoded.instr.inj h⟩

theorem encode_of_decodeFamily8 {op : Word} {i : Instr} (h1 : nibble1 op = 0x8) (h : decodeFamily8 op = .instr i) :
    i.wellFormed = true ∧ encode i = op := by
  unfold decodeFamily8 at h
  split at h <;> cases h <;> exact ⟨rfl, encodeR_fields h1 ‹_› rfl⟩

theorem encode_of_decodeFamilyE {op : Word} {i : Instr} (h1 : nibble1 op = 0xE) (h : decodeFamilyE op = .instr i) :
    i.wellFormed = true ∧ encode i = op := by
  unfold decodeFamilyE at h
  split at h <;> cases h <;> exact ⟨rfl, encodeK_fields h1 ‹_› rfl⟩

theorem encode_of_decodeFamilyF {op : Word} {i : Instr} (h1 : nibble1 op = 0xF) (h : decodeFamilyF op = .instr i) :
    i.wellFormed = true ∧ encode i = op := by
  unfold decodeFamilyF at h
  split at h <;> cases h <;> exact ⟨rfl, encodeK_fields h1 ‹_› rfl⟩

/-- The round trip from a word, under STRICT_DECODE = true. Branch `h_k` of the decoder is family `k - 1`. -/
theorem encode_of_decode {op : Word} {i : Instr} (h : decodeWith true op = .instr i) :
    i.wellFormed = true ∧ encode i = op := by
  unfold decodeWith at h
  split at h
  case h_1 h1 => exact encode_of_decodeFamily0 h1 h
  case h_2 h1 | h_3 h1 | h_11 h1 | h_12 h1 => cases h; exact ⟨rfl, encodeA_fields h1 rfl⟩
  case h_4 h1 | h_5 h1 | h_7 h1 | h_8 h1 | h_13 h1 => cases h; exact ⟨rfl, encodeI_fields h1 rfl⟩
  case h_6 h1 | h_10 h1 =>
    obtain ⟨h4, rfl⟩ := decodeZeroN4_eq_instr h
    exact ⟨rfl, encodeR_fields h1 h4 rfl⟩
  case h_9 h1 => exact encode_of_decodeFamily8 h1 h
  case h_14 h1 => cases h; exact ⟨decide_eq_true (nibble4 op).isLt, encodeD_fields h1 rfl⟩
  case h_15 h1 => exact encode_of_decodeFamilyE h1 h
  case h_16 h1 => exact encode_of_decodeFamilyF h1 h
  case h_17 => cases h

/-! ### At most one row selects a word (R85) -/

theorem OpcodeRow.selects_iff (row : OpcodeRow) (strict : Bool) (op : Word) :
    row.selects strict op = true ↔ op &&& row.mask strict = row.pattern := by
  simp [OpcodeRow.selects]

/-- Two rows that both select a word have patterns that agree under the two masks. -/
theorem OpcodeRow.patterns_agree {p q : OpcodeRow} {strict : Bool} {op : Word} (hp : p.selects strict op = true)
    (hq : q.selects strict op = true) : p.pattern &&& q.mask strict = q.pattern &&& p.mask strict := by
  rw [← (p.selects_iff strict op).1 hp, ← (q.selects_iff strict op).1 hq, BitVec.and_assoc, BitVec.and_assoc,
    BitVec.and_comm (p.mask strict)]

theorem opcodeTable_patterns_differ (strict : Bool) :
    opcodeTable.Pairwise (fun p q => p.pattern &&& q.mask strict ≠ q.pattern &&& p.mask strict) := by
  revert strict; decide

theorem opcodeTable_exclusive (strict : Bool) (op : Word) :
    opcodeTable.Pairwise (fun p q => ¬ (p.selects strict op = true ∧ q.selects strict op = true)) :=
  (opcodeTable_patterns_differ strict).imp fun hne hboth => hne (OpcodeRow.patterns_agree hboth.1 hboth.2)

/-! ### A word that a row selects decodes to what the row builds (R74, R79) -/

theorem and_FFFF_iff {op p : Word} :
    op &&& 0xFFFF#16 = p ↔ nibble1 op = nibble1 p ∧ nibble2 op = nibble2 p ∧ fieldNN op = fieldNN p := by
  rw [show op &&& 0xFFFF#16 = op from BitVec.and_allOnes]
  exact ⟨fun h => h ▸ ⟨rfl, rfl, rfl⟩, fun ⟨h1, h2, hnn⟩ => word_ext h1 h2 hnn⟩

/-- What the masks of 5XY0 and 9XY0 ask of a word, under either value of STRICT_DECODE (R79). -/
theorem decodeZeroN4_of_mask {strict : Bool} {op p : Word} (hp : p &&& 0xF000#16 = p) (hp' : p &&& 0xF00F#16 = p)
    (h4 : nibble4 p = 0) (h : op &&& (if strict then 0xF00F#16 else 0xF000#16) = p) :
    nibble1 op = nibble1 p ∧ ∀ i, decodeZeroN4 strict op i = .instr i := by
  cases strict with
  | true =>
    obtain ⟨h1, hop⟩ := (and_F00F_iff hp').1 h
    exact ⟨h1, fun i => by simp [decodeZeroN4, hop, h4]⟩
  | false => exact ⟨(and_F000_iff hp).1 h, fun _ => rfl⟩

theorem decodeWith_of_selects_flow (strict : Bool) (op : Word) :
    ∀ row ∈ opcodeRowsFlow, row.selects strict op = true → decodeWith strict op = .instr (row.build op) := by
  simp only [opcodeRowsFlow, List.forall_mem_cons, OpcodeRow.selects_iff, OpcodeRow.mask, ite_self]
  refine ⟨fun h => ?cls, fun h => ?ret, fun h => ?_, fun h => ?_, fun h => ?_, fun h => ?_, fun h => ?seReg,
    fun h => ?_, fun h => ?_, nofun⟩
  case cls | ret =>
    cases strict with
    | true =>
      obtain ⟨h1, h2, hnn⟩ := and_FFFF_iff.1 h
      rw [decodeWith, decodeFamily0, h1, h2, hnn]
      rfl
    | false =>
      obtain ⟨h1, hnn⟩ := (and_F0FF_iff rfl).1 h
      rw [decodeWith, decodeFamily0, h1, hnn]
      rfl
  case seReg =>
    obtain ⟨h1, hinstr⟩ := decodeZeroN4_of_mask rfl rfl rfl h
    exact (decodeWith_family5 h1 strict).trans (hinstr _)
  all_goals
    rw [decodeWith, (and_F000_iff rfl).1 h]
    rfl

theorem decodeWith_of_selects_alu (strict : Bool) (op : Word) :
    ∀ row ∈ opcodeRowsAlu, row.selects strict op = true → decodeWith strict op = .instr (row.build op) := by
  simp only [opcodeRowsAlu, List.forall_mem_cons, OpcodeRow.selects_iff, OpcodeRow.mask, ite_self]
  refine ⟨fun h => ?_, fun h => ?_, fun h => ?_, fun h => ?_, fun h => ?_, fun h => ?_, fun h => ?_, fun h => ?_,
    fun h => ?_, fun h => ?sneReg, nofun⟩
  case sneReg =>
    obtain ⟨h1, hinstr⟩ := decodeZeroN4_of_mask rfl rfl rfl h
    exact (decodeWith_family9 h1 strict).trans (hinstr _)
  all_goals
    obtain ⟨h1, h4⟩ := (and_F00F_iff rfl).1 h
    rw [decodeWith_family8 h1, decodeFamily8, h4]
    rfl

theorem decodeWith_of_selects_index (strict : Bool) (op : Word) :
    ∀ row ∈ opcodeRowsIndex, row.selects strict op = true → decodeWith strict op = .instr (row.build op) := by
  simp only [opcodeRowsIndex, List.forall_mem_cons, OpcodeRow.selects_iff, OpcodeRow.mask, ite_self]
  refine ⟨fun h => ?_, fun h => ?_, fun h => ?_, fun h => ?_, fun h => ?skp, fun h => ?sknp, nofun⟩
  case skp | sknp =>
    obtain ⟨h1, hnn⟩ := (and_F0FF_iff rfl).1 h
    rw [decodeWith_familyE h1, decodeFamilyE, hnn]
    rfl
  all_goals
    rw [decodeWith, (and_F000_iff rfl).1 h]
    rfl

theorem decodeWith_of_selects_familyF (strict : Bool) (op : Word) :
    ∀ row ∈ opcodeRowsF, row.selects strict op = true → decodeWith strict op = .instr (row.build op) := by
  simp only [opcodeRowsF, List.forall_mem_cons, OpcodeRow.selects_iff, OpcodeRow.mask, ite_self]
  refine ⟨fun h => ?_, fun h => ?_, fun h => ?_, fun h => ?_, fun h => ?_, fun h => ?_, fun h => ?_, fun h => ?_,
    fun h => ?_, nofun⟩
  all_goals
    obtain ⟨h1, hnn⟩ := (and_F0FF_iff rfl).1 h
    rw [decodeWith_familyF h1, decodeFamilyF, hnn]
    rfl

theorem decodeWith_of_selects {strict : Bool} {op : Word} {row : OpcodeRow} (hrow : row ∈ opcodeTable)
    (h : row.selects strict op = true) : decodeWith strict op = .instr (row.build op) := by
  simp only [opcodeTable, List.mem_append] at hrow
  obtain ((hrow | hrow) | hrow) | hrow := hrow
  · exact decodeWith_of_selects_flow strict op row hrow h
  · exact decodeWith_of_selects_alu strict op row hrow h
  · exact decodeWith_of_selects_index strict op row hrow h
  · exact decodeWith_of_selects_familyF strict op row hrow h

/-! ### What STRICT_DECODE = false changes (R79) -/

/-- Settles O6: the four words are those of families 5, 9 and 0, and STRICT_DECODE is read nowhere else. -/
theorem looseDecodingIgnoresTheZeroNibbles : Obligations.LooseDecodingIgnoresTheZeroNibbles := by
  intro op
  split_ifs with h5 h9 hcls hret
  · exact decodeWith_family5 h5 false
  · exact decodeWith_family9 h9 false
  · rw [decodeWith_family0 hcls.1, decodeFamily0, hcls.2]
    rfl
  · rw [decodeWith_family0 hret.1, decodeFamily0, hret.2]
    rfl
  · by_cases h0 : nibble1 op = 0x0
    · have hE0 : fieldNN op ≠ 0xE0 := fun hnn => hcls ⟨h0, hnn⟩
      have hEE : fieldNN op ≠ 0xEE := fun hnn => hret ⟨h0, hnn⟩
      simp only [decodeWith_family0 h0, decodeFamily0_other hE0 hEE]
    · exact decodeWith_strict_irrelevant h0 h5 h9 false true

/-! ### A word that decodes is selected by a row (R74, R79) -/

open Laws.EncodeSelected in
/-- The lemmas of Laws/PerInstr, for every instruction at once. -/
theorem encode_selected (i : Instr) : Laws.EncodeSelected.Statement i :=
  match i with
  | .cls => cls
  | .ret => ret
  | .jp nnn => jp nnn
  | .call nnn => call nnn
  | .seImm x nn => seImm x nn
  | .sneImm x nn => sneImm x nn
  | .seReg x y => seReg x y
  | .ldImm x nn => ldImm x nn
  | .addImm x nn => addImm x nn
  | .ldReg x y => ldReg x y
  | .orReg x y => orReg x y
  | .andReg x y => andReg x y
  | .xorReg x y => xorReg x y
  | .addReg x y => addReg x y
  | .sub x y => sub x y
  | .shr x y => shr x y
  | .subn x y => subn x y
  | .shl x y => shl x y
  | .sneReg x y => sneReg x y
  | .ldI nnn => ldI nnn
  | .jpV0 nnn => jpV0 nnn
  | .rnd x nn => rnd x nn
  | .drw x y n => drw x y n
  | .skp x => skp x
  | .sknp x => sknp x
  | .ldVxDt x => ldVxDt x
  | .ldVxK x => ldVxK x
  | .ldDtVx x => ldDtVx x
  | .ldStVx x => ldStVx x
  | .addI x => addI x
  | .ldF x => ldF x
  | .ldB x => ldB x
  | .stRegs x => stRegs x
  | .ldRegs x => ldRegs x

/-- Under STRICT_DECODE = true the row is the one that selects the encoder's word; it selects under either value. -/
theorem exists_row_of_strict_decode {op : Word} {i : Instr} (h : decodeWith true op = .instr i) (strict : Bool) :
    ∃ row ∈ opcodeTable, row.selects strict op = true ∧ row.build op = i := by
  obtain ⟨hwf, rfl⟩ := encode_of_decode h
  obtain ⟨row, hrow, hbuild, hsel⟩ := encode_selected i hwf
  exact ⟨row, hrow, hsel strict, hbuild⟩

theorem exists_row_of_decode {strict : Bool} {op : Word} {i : Instr} (h : decodeWith strict op = .instr i) :
    ∃ row ∈ opcodeTable, row.selects strict op = true ∧ row.build op = i := by
  cases strict with
  | true => exact exists_row_of_strict_decode h true
  | false =>
    rw [looseDecodingIgnoresTheZeroNibbles op] at h
    split_ifs at h with h5 h9 hcls hret
    · exact ⟨_, List.mem_of_getElem? (i := 6) rfl, (OpcodeRow.selects_iff ..).2 ((and_F000_iff rfl).2 h5),
        Decoded.instr.inj h⟩
    · exact ⟨_, List.mem_of_getElem? (i := 18) rfl, (OpcodeRow.selects_iff ..).2 ((and_F000_iff rfl).2 h9),
        Decoded.instr.inj h⟩
    · exact ⟨_, List.mem_of_getElem? (i := 0) rfl, (OpcodeRow.selects_iff ..).2 ((and_F0FF_iff rfl).2 hcls),
        Decoded.instr.inj h⟩
    · exact ⟨_, List.mem_of_getElem? (i := 1) rfl, (OpcodeRow.selects_iff ..).2 ((and_F0FF_iff rfl).2 hret),
        Decoded.instr.inj h⟩
    · exact exists_row_of_strict_decode h false

/-! ### The other statements -/

/-- Settles O4: a selecting row decides the decoding, a decoded word has a selecting row, and the patterns of two rows
differ under their masks. -/
theorem decoderIsTheOpcodeMap : Obligations.DecoderIsTheOpcodeMap := by
  intro strict op
  refine ⟨fun i => ⟨exists_row_of_decode, ?_⟩, ⟨fun hnone => ?_, fun hunknown row hrow => ?_⟩,
    opcodeTable_exclusive strict op⟩
  · rintro ⟨row, hrow, hsel, rfl⟩
    exact decodeWith_of_selects hrow hsel
  · cases hd : decodeWith strict op with
    | unknown w => rw [decodeWith_unknown hd]
    | instr i =>
      obtain ⟨row, hrow, hsel, -⟩ := exists_row_of_decode hd
      exact absurd hsel (by simp [hnone row hrow])
  · by_contra hsel
    cases hunknown.symm.trans (decodeWith_of_selects hrow (by simpa using hsel))

/-- Settles O2: the encoder's word is selected by a row that builds the instruction back, and the decoder follows the
rows. -/
theorem decodeOfEncodeIsTheInstruction : Obligations.DecodeOfEncodeIsTheInstruction := by
  intro strict i hwf
  obtain ⟨row, hrow, hbuild, hsel⟩ := encode_selected i hwf
  rw [decodeWith_of_selects hrow (hsel strict), hbuild]

/-- Settles O3: each family's word is put together again from the fields its decoder reads. -/
theorem encodeOfDecodeIsTheWord : Obligations.EncodeOfDecodeIsTheWord :=
  fun _ _ => encode_of_decode

/-- Settles O5: six families hold unknown opcodes, each those its own decoder leaves. -/
theorem unknownWordsAreThoseOfTheTable : Obligations.UnknownWordsAreThoseOfTheTable := by
  intro op
  by_cases h0 : nibble1 op = 0x0
  · simp [h0, decodeWith_family0, decodeFamily0_unknown_iff]
  by_cases h5 : nibble1 op = 0x5
  · simp [h5, decodeWith_family5, decodeZeroN4_unknown_iff]
  by_cases h8 : nibble1 op = 0x8
  · simp [h8, decodeWith_family8, decodeFamily8_unknown_iff]
  by_cases h9 : nibble1 op = 0x9
  · simp [h9, decodeWith_family9, decodeZeroN4_unknown_iff]
  by_cases hE : nibble1 op = 0xE
  · simp [hE, decodeWith_familyE, decodeFamilyE_unknown_iff]
  by_cases hF : nibble1 op = 0xF
  · simp [hF, decodeWith_familyF, decodeFamilyF_unknown_iff]
  · refine iff_of_false (decodeWith_ne_unknown (by simpa using ⟨h0, h5, h8, h9, hE, hF⟩) true op) ?_
    rintro (⟨h, -⟩ | ⟨h, -⟩ | ⟨h, -⟩ | ⟨h, -⟩ | ⟨h, -⟩ | ⟨h, -⟩) <;> contradiction

/-- Settles O10: the step on an unknown opcode is the advance of PC, and the word it reports is the one fetched. -/
theorem unknownOpcodeIsNoOpWithReport : Obligations.UnknownOpcodeIsNoOpWithReport := by
  intro s op hw hd
  obtain ⟨hstep, hresult⟩ := stepWith_unknown (p := params) hw hd
  obtain rfl := decodeWith_unknown hd
  exact ⟨hresult, rfl, s.advance, hstep, s.advance_pc_toNat, fun p hp => sameAt_pc s _ (by simpa using hp)⟩

/-- Settles O1: twenty closed words, evaluated by the decoder. -/
theorem sampleWordsDecode : Obligations.SampleWordsDecode := by
  unfold Obligations.SampleWordsDecode
  decide

end Sys2Proof
end

section
/-! PROOFS of the statements about the step cycle (40_step_cycle.md): the instruction a step runs, a word placed under the
step, what the step reports, and what ends a wait. -/

namespace Sys2Proof.Machine

/-! ### A word placed at PC (R55, R91; log 10) -/

/-- The two bytes of a word, written where PC reads and with room for both, are the word at PC. -/
theorem State.fetchWord_writeMem_bytes (s : State) (op : Word) (hpc : s.pc.toNat + 1 < 4096) :
    ((s.writeMem s.pc.toNat (highByte op)).writeMem (s.pc.toNat + 1) (lowByte op)).fetchWord = op := by
  have hpc' : s.pc.toNat < 4096 := by omega
  simp [State.fetchWord, State.readMem_writeMem, hpc, hpc']

/-- A placed word is fetched, whether there is room at PC or PC moves to 0x200. -/
theorem State.fetchWord_placeWord (s : State) (op : Word) : (s.placeWord op).fetchWord = op := by
  by_cases hroom : s.pc.toNat + 1 < 4096
  · simpa [State.placeWord, hroom] using fetchWord_writeMem_bytes { s with wait := .run } op hroom
  · have hroom' : (0x200 : Word).toNat + 1 < 4096 := by decide
    simpa [State.placeWord, hroom] using fetchWord_writeMem_bytes { s with pc := 0x200, wait := .run } op hroom'

@[simp] theorem State.placeWord_wait (s : State) (op : Word) : (s.placeWord op).wait = .run := rfl

/-- A word has 16 bits, so none is cut off. -/
theorem State.withFetchWord_toNat (s : State) (op : Word) : s.withFetchWord 16 op.toNat = s.placeWord op := by
  rw [State.withFetchWord, Nat.mod_eq_of_lt op.isLt, BitVec.ofNat_toNat, BitVec.setWidth_eq]

/-! ### FX0A alone makes the machine wait (R148, R176) -/

theorem mayWrite_wait (i : Instr) (s : State) : mayWrite i s .wait = suspends i := by
  cases i <;> rfl

/-- An instruction run outside a wait leaves the machine waiting exactly when it is FX0A. -/
theorem exec_wait_ne_run_iff {i : Instr} {s t : State} (hw : s.wait = .run) (ht : exec i s = .next t) :
    t.wait ≠ .run ↔ suspends i = true := by
  by_cases hi : suspends i = true
  · obtain ⟨x, rfl⟩ := (suspends_iff i).1 hi
    cases ht
    exact iff_of_true Wait.noConfusion rfl
  · have hframe : t.wait = s.wait := exec_frame ht .wait (by simpa [mayWrite_wait] using hi)
    exact iff_of_false (by simp [hframe, hw]) hi

/-! ### The host during a wait (R148, R165, R167) -/

/-- During a wait a host operation keeps the wait, or is a cancel or the key-down of a key below 16, and ends it. -/
theorem State.host_wait_of_waiting {s : State} {x : Reg} (hw : s.wait = .waitKey x) (op : HostOp) :
    (s.host op).wait = .waitKey x ∨
      ((s.host op).wait = .run ∧ (op = .cancel ∨ ∃ k, k < 16 ∧ op = .keyDown k)) := by
  cases op with
  | keyDown k =>
    rcases Nat.lt_or_ge k 16 with hk | hk
    · exact .inr ⟨congrArg State.wait (keyDown_waiting hw hk), .inr ⟨k, hk, rfl⟩⟩
    · exact .inl ((congrArg State.wait (s.keyDown_out_of_range hk)).trans hw)
  | cancel => exact .inr ⟨congrArg State.wait (cancel_waiting hw), .inl rfl⟩
  | _ => exact .inl hw

/-! ### The statements -/

/-- Settles O8: the step's case of a decoded instruction, at the parameters of this model. -/
theorem stepRunsTheDecodedInstruction : Obligations.StepRunsTheDecodedInstruction :=
  fun _ i hw hd => (stepWith_instr (p := params) hw hd).1.trans (execWith_params i _)

/-- Settles O12: the step's case of a waiting machine. -/
theorem stepWhileWaitingChangesNothing : Obligations.StepWhileWaitingChangesNothing :=
  fun _ _ hw => stepWith_waitKey params hw

/-- Settles O9: the placed word is the one fetched, outside a wait, so that O8 says what the step runs. -/
theorem placedWordIsTheNextInstruction : Obligations.PlacedWordIsTheNextInstruction := by
  intro s op i hd
  rw [State.withFetchWord_toNat]
  have hfetch := s.fetchWord_placeWord op
  exact ⟨hfetch, s.placeWord_wait op, stepRunsTheDecodedInstruction _ i (s.placeWord_wait op) (hfetch.symm ▸ hd)⟩

/-- Settles O13, one case of the step for each result; an instruction's own result is by whether it is FX0A. -/
theorem stepReportsWhatItDid : Obligations.StepReportsWhatItDid := by
  intro s
  rcases step_cases s with ⟨x, hw, hstep, hres⟩ | ⟨hw, op, hd, hstep, hres⟩ | ⟨hw, i, hd, hstep, hres⟩
  · simp [hw, hstep, hres]
  · have hdec : decode s.fetchWord = .unknown op := hd
    simp [hw, hdec, hstep, hres]
  · have hdec : decode s.fetchWord = .instr i := hd
    have hwait : ∀ t, step s = .next t → (t.wait ≠ .run ↔ suspends i = true) :=
      fun t ht => exec_wait_ne_run_iff (s := s.advance) hw (hstep.symm.trans ht)
    cases hi : suspends i with
    | true =>
      obtain ⟨x, rfl⟩ := (suspends_iff i).1 hi
      simpa [hw, hdec, hres, hi] using hwait
    | false =>
      have hother : ∀ x, i ≠ .ldVxK x := fun x hx => by simp [hx, suspends] at hi
      simpa [hw, hdec, hres, hi, hother] using hwait

/-- Settles O44: a step of a waiting machine changes nothing (O12), and the host's operations are taken one by one. -/
theorem onlyKeyDownOrCancelEndsAWait : Obligations.OnlyKeyDownOrCancelEndsAWait :=
  fun s x hw => ⟨(stepWhileWaitingChangesNothing s x hw).1, State.host_wait_of_waiting hw⟩

end Sys2Proof.Machine
end

section
/-! PROOFS of the statements about control flow (41_flow.md): jumps, call and return, the skips on registers, and the
jump to itself that ends a program. -/

namespace Sys2Proof

/-! ### The decoder in the families of the jumps and the skips (R74, R79) -/

theorem decodeWith_family1 {op : Word} (h1 : nibble1 op = 0x1) (strict : Bool) :
    decodeWith strict op = .instr (.jp (fieldNNN op)) := by
  rw [decodeWith, h1]
  rfl

theorem decodeWith_family3 {op : Word} (h1 : nibble1 op = 0x3) (strict : Bool) :
    decodeWith strict op = .instr (.seImm (fieldX op) (fieldNN op)) := by
  rw [decodeWith, h1]
  rfl

theorem decodeWith_family4 {op : Word} (h1 : nibble1 op = 0x4) (strict : Bool) :
    decodeWith strict op = .instr (.sneImm (fieldX op) (fieldNN op)) := by
  rw [decodeWith, h1]
  rfl

theorem decodeWith_familyB {op : Word} (h1 : nibble1 op = 0xB) (strict : Bool) :
    decodeWith strict op = .instr (.jpV0 (fieldNNN op)) := by
  rw [decodeWith, h1]
  rfl

/-- In families 5 and 9 a zero low nibble is decoded, and with STRICT_DECODE = false any low nibble is (R79). -/
theorem decodeZeroN4_eq_instr_of {strict : Bool} {op : Word} (h : strict = false ∨ nibble4 op = 0x0) (i : Instr) :
    decodeZeroN4 strict op i = .instr i := by
  rcases h with h | h <;> simp [decodeZeroN4, h]

end Sys2Proof

namespace Sys2Proof.Machine

/-! ### The targets of the jumps (R101, R107) -/

@[simp] theorem zextByte_toNat (b : Byte) : (zextByte b).toNat = b.toNat :=
  BitVec.toNat_setWidth_of_le (by decide)

/-- A byte and a 12-bit address add up to less than 65536, so PC takes the sum as it is (R107). -/
theorem State.jumpV0Target_toNat (s : State) (nnn : Addr12) :
    (s.jumpV0Target nnn).toNat = (s.getV 0).toNat + nnn.toNat := by
  have hfits : (zextByte (s.getV 0)).toNat + (zextAddr nnn).toNat < 2 ^ 16 := by
    rw [zextByte_toNat, zextAddr_toNat]
    omega
  rw [State.jumpV0Target, BitVec.toNat_add_of_lt hfits, zextByte_toNat, zextAddr_toNat]

/-! ### The steps of a call and of a return (R90, R100, R102) -/

theorem step_of_call {s : State} {nnn : Addr12} (hw : s.wait = .run) (hd : decode s.fetchWord = .instr (.call nnn))
    (heven : nnn.toNat % 2 = 0) :
    step s = .next { s with pc := zextAddr nnn, stack := (s.pc + 2) :: s.stack } :=
  (stepRunsTheDecodedInstruction s _ hw hd).trans (execCall_of_even heven _)

/-- With 00 EE at PC and an entry on the stack, the step moves PC to that entry and takes it off. -/
theorem step_of_ret_bytes {s : State} {w : Word} {rest : List Word} (hw : s.wait = .run)
    (hhi : s.readMem s.pc.toNat = 0x00) (hlo : s.readMem (s.pc.toNat + 1) = 0xEE) (hstack : s.stack = w :: rest) :
    step s = .next { s with pc := w, stack := rest } := by
  have hd : decode s.fetchWord = .instr .ret := by
    rw [State.fetchWord, hhi, hlo]
    rfl
  exact (stepRunsTheDecodedInstruction s _ hw hd).trans (execRet_of_cons hstack)

/-! ### The skips (R97) -/

theorem State.skipIf_pc_toNat (s : State) (c : Bool) :
    (s.skipIf c).pc.toNat = if c then (s.pc.toNat + 2) % 65536 else s.pc.toNat := by
  cases c with
  | true => exact s.advance_pc_toNat
  | false => rfl

/-- All that is claimed of an instruction whose handler is a skip: PC past one word exactly when its condition holds, and
the frame. -/
theorem exec_of_skipIf {i : Instr} {s : State} {c : Bool} {q : Prop} [Decidable q] (hc : c = true ↔ q)
    (h : exec i s = .next (s.skipIf c)) :
    ∃ t, exec i s = .next t ∧ Frame i s t ∧ t.pc.toNat = if q then (s.pc.toNat + 2) % 65536 else s.pc.toNat :=
  ⟨_, h, exec_frame h, by simp only [s.skipIf_pc_toNat, hc]⟩

/-! ### The statements -/

/-- Settles O22, by whether the stack holds an entry; after a call it holds PC on top. -/
theorem returnPopsOrDoesNothing : Obligations.ReturnPopsOrDoesNothing := by
  refine ⟨rfl, fun s => ⟨fun w rest hstack => ?_, execRet_of_nil, fun nnn t u heven hcall hu => ?_⟩⟩
  · have hret : exec .ret s = .next { s with pc := w, stack := rest } := execRet_of_cons hstack
    exact ⟨_, hret, rfl, rfl, exec_frame hret⟩
  · cases (execCall_of_even heven s).symm.trans hcall
    exact ⟨_, execRet_of_cons hu, rfl, rfl⟩

/-- Settles O23: the call's step leaves PC at NNN and the address after the call on the stack, the entry that the return's
step there pops. -/
theorem callStepThenReturnStepComesBack : Obligations.CallStepThenReturnStepComesBack := by
  intro s nnn hw hd heven hhi hlo
  rw [← zextAddr_toNat nnn] at hhi hlo
  have hret := step_of_ret_bytes (s := { s with pc := zextAddr nnn, stack := (s.pc + 2) :: s.stack }) hw hhi hlo rfl
  exact ⟨_, _, step_of_call hw hd heven, hret, rfl, rfl, fun p hp => sameAt_pc s _ (by simpa using hp)⟩

/-- Settles O15: the jump writes PC with the value PC has had since before the fetch. -/
theorem jumpToSelfChangesNothing : Obligations.JumpToSelfChangesNothing := by
  rintro s ⟨hw, nnn, hd, hself⟩
  calc step s
      = exec (.jp nnn) s.advance := stepRunsTheDecodedInstruction s _ hw hd
    _ = .next { s.advance with pc := zextAddr nnn } := rfl
    _ = .next s := by rw [hself]; rfl

/-- Settles O19: families 1 and B hold one instruction each, and neither target needs more than 16 bits. -/
theorem jumpsSetTheProgramCounter : Obligations.JumpsSetTheProgramCounter := by
  refine ⟨fun op => ⟨fun h1 => decodeWith_family1 h1 _, fun hB => decodeWith_familyB hB _⟩, fun nnn s => ⟨?_, ?_⟩⟩
  · exact ⟨_, rfl, zextAddr_toNat nnn, exec_frame rfl⟩
  · exact ⟨_, rfl, s.jumpV0Target_toNat nnn, exec_frame rfl⟩

/-- Settles O20, by the parity of the target. -/
theorem callPushesAndJumpsOrIsRefused : Obligations.CallPushesAndJumpsOrIsRefused := by
  refine fun nnn s => ⟨fun heven => ?_, fun hodd => callWith_of_odd hodd params.stackCap s⟩
  have hcall : exec (.call nnn) s = _ := execCall_of_even heven s
  exact ⟨_, hcall, zextAddr_toNat nnn, rfl, exec_frame hcall⟩

/-- Settles O24: each handler is a skip, on a comparison of two bytes. -/
theorem registerSkipsMovePastOneWord : Obligations.RegisterSkipsMovePastOneWord := by
  refine ⟨fun strict op => ⟨fun h3 => decodeWith_family3 h3 _, fun h4 => decodeWith_family4 h4 _, fun hn4 =>
    ⟨fun h5 => ?_, fun h9 => ?_⟩⟩, fun x y nn s => ⟨?_, ?_, ?_, ?_⟩⟩
  · rw [decodeWith_family5 h5, decodeZeroN4_eq_instr_of hn4]
  · rw [decodeWith_family9 h9, decodeZeroN4_eq_instr_of hn4]
  · exact exec_of_skipIf beq_iff_eq rfl
  · exact exec_of_skipIf bne_iff_ne rfl
  · exact exec_of_skipIf beq_iff_eq rfl
  · exact exec_of_skipIf bne_iff_ne rfl

end Sys2Proof.Machine
end

section
/-! PROOFS of the statements about register loads and the ALU (42_alu.md): what the flags and the results are as numbers,
and which of the two stands when the destination is VF. -/

namespace Sys2Proof

/-! ### The decoder in the families of the loads (R74) -/

theorem decodeWith_family6 {op : Word} (h1 : nibble1 op = 0x6) (strict : Bool) :
    decodeWith strict op = .instr (.ldImm (fieldX op) (fieldNN op)) := by
  rw [decodeWith, h1]
  rfl

theorem decodeWith_family7 {op : Word} (h1 : nibble1 op = 0x7) (strict : Bool) :
    decodeWith strict op = .instr (.addImm (fieldX op) (fieldNN op)) := by
  rw [decodeWith, h1]
  rfl

theorem decodeFamily8_ldReg {op : Word} (h4 : nibble4 op = 0x0) :
    decodeFamily8 op = .instr (.ldReg (fieldX op) (fieldY op)) := by
  rw [decodeFamily8, h4]
  rfl

end Sys2Proof

namespace Sys2Proof.Machine

/-! ### The flags as numbers (R21, R117 to R121) -/

theorem flagByte_decide_toNat (q : Prop) [Decidable q] : (flagByte (decide q)).toNat = if q then 1 else 0 := by
  by_cases h : q <;> simp [flagByte, h]

/-- The old bit 0 is the remainder by 2, in the shift to the left too (R119, R121). -/
theorem flagByte_oldBit0_toNat (a : Byte) : (flagByte (oldBit0 a)).toNat = a.toNat % 2 := by
  have hbit : oldBit0 a = decide (a.toNat % 2 = 1) := Nat.testBit_zero a.toNat
  rw [hbit, flagByte_decide_toNat]
  split_ifs <;> omega

/-! ### The results as numbers (R118 to R121) -/

theorem byteSub_toNat (a b : Byte) : (a - b).toNat = (a.toNat + 256 - b.toNat) % 256 := by
  rw [BitVec.toNat_sub]
  omega

theorem byteShiftRight_toNat (a : Byte) : (a >>> 1).toNat = a.toNat / 2 := by
  rw [BitVec.toNat_ushiftRight, Nat.shiftRight_one]

theorem byteShiftLeft_toNat (a : Byte) : (a <<< 1).toNat = a.toNat * 2 % 256 := by
  rw [BitVec.toNat_shiftLeft, Nat.shiftLeft_eq]

/-! ### A result and a flag, in either order (R110, R124; D9) -/

theorem State.setV_setV_self (s : State) (i : Nat) (b c : Byte) : (s.setV i b).setV i c = s.setV i c := by
  simp [State.setV]

theorem State.setV_comm (s : State) {i j : Nat} (h : i ≠ j) (b c : Byte) :
    (s.setV i b).setV j c = (s.setV j c).setV i b := by
  simp only [State.setV, Vector.setIfInBound_comm b c h]

/-- 8XY5 answers as if the difference were written first and the flag after it: a difference left out for X = F is one the
flag would replace (R118). -/
theorem execSub_eq (x y : Reg) (s : State) :
    execSub x y s = .next ((s.setV x (s.getV x - s.getV y)).setFlag (noBorrow (s.getV x) (s.getV y))) := by
  by_cases hx : x = VF
  · subst hx
    simp only [execSub, if_pos, State.setFlag, State.setV_setV_self]
  · simp only [execSub, if_neg hx, State.setFlag, State.setV_comm s (Reg.val_ne hx)]

/-- All that is claimed of an instruction that writes its result first: the flag stands in every case, the result in a
destination other than VF. -/
theorem exec_of_setV_setFlag {i : Instr} {s : State} {x : Reg} {r : Byte} {flag : Bool} {m n : Nat}
    (h : exec i s = .next ((s.setV x r).setFlag flag)) (hflag : (flagByte flag).toNat = m) (hr : r.toNat = n) :
    ∃ t, exec i s = .next t ∧ Frame i s t ∧ (t.getV VF).toNat = m ∧ (x ≠ VF → (t.getV x).toNat = n) := by
  refine ⟨_, h, exec_frame h, ?_, fun hx => ?_⟩
  · rw [VF_val, State.getV_setFlag_VF, hflag]
  · rw [State.getV_setFlag_ne _ _ (Reg.val_ne hx), State.getV_setV_self, hr]

/-- All that is claimed of an instruction that writes its flag first: the result stands in every case, the flag when the
destination is not VF. -/
theorem exec_of_setFlag_setV {i : Instr} {s : State} {y : Reg} {r : Byte} {flag : Bool} {m n : Nat}
    (h : exec i s = .next ((s.setFlag flag).setV y r)) (hr : r.toNat = n) (hflag : (flagByte flag).toNat = m) :
    ∃ t, exec i s = .next t ∧ Frame i s t ∧ (t.getV y).toNat = n ∧ (y ≠ VF → (t.getV VF).toNat = m) := by
  refine ⟨_, h, exec_frame h, ?_, fun hy => ?_⟩
  · rw [State.getV_setV_self, hr]
  · rw [State.getV_setV_ne _ (Reg.val_ne hy), VF_val, State.getV_setFlag_VF, hflag]

/-! ### The statements -/

/-- Settles O28: the sum is written first, the carry after it. -/
theorem addRegistersSetsTheCarry : Obligations.AddRegistersSetsTheCarry :=
  fun _ _ _ => exec_of_setV_setFlag rfl (flagByte_decide_toNat _) (BitVec.toNat_add _ _)

/-- Settles O29: the flag stands for X = F, as if it were written last. -/
theorem subtractSetsNoBorrow : Obligations.SubtractSetsNoBorrow :=
  fun x y s => exec_of_setV_setFlag (execSub_eq x y s) (flagByte_decide_toNat _) (byteSub_toNat _ _)

/-- Settles O30: both shifts write the flag first, the old bit 0. -/
theorem shiftsGoIntoVyWithOldBit0 : Obligations.ShiftsGoIntoVyWithOldBit0 :=
  fun _ _ _ => ⟨exec_of_setFlag_setV rfl (byteShiftRight_toNat _) (flagByte_oldBit0_toNat _),
    exec_of_setFlag_setV rfl (byteShiftLeft_toNat _) (flagByte_oldBit0_toNat _)⟩

/-- Settles O31: the flag is written first, both operands being read before it. -/
theorem subnFollowsTheTableRow : Obligations.SubnFollowsTheTableRow :=
  fun _ _ _ => exec_of_setFlag_setV rfl (byteSub_toNat _ _) (flagByte_decide_toNat _)

/-- Settles O26: three families of the decoder, and three handlers that write V[X] alone. -/
theorem loadsAndAddImmediate : Obligations.LoadsAndAddImmediate := by
  refine ⟨fun op => ⟨fun h6 => decodeWith_family6 h6 _, fun h7 => decodeWith_family7 h7 _, fun ⟨h8, h4⟩ => ?_⟩,
    fun x y nn s => ⟨?_, ?_, ?_⟩⟩
  · exact (decodeWith_family8 h8 _).trans (decodeFamily8_ldReg h4)
  · exact ⟨_, rfl, s.getV_setV_self x nn, exec_frame rfl⟩
  · exact ⟨_, rfl, by rw [State.getV_setV_self, BitVec.toNat_add], exec_frame rfl⟩
  · exact ⟨_, rfl, s.getV_setV_self x (s.getV y), exec_frame rfl⟩

/-- Settles O27: a bit of the byte written to V[X] is the operation on the two old bits. -/
theorem bitwiseOperationsLeaveTheFlag : Obligations.BitwiseOperationsLeaveTheFlag := by
  refine fun x y s => ⟨⟨_, rfl, exec_frame rfl, fun k => ?_⟩, ⟨_, rfl, exec_frame rfl, fun k => ?_⟩,
    ⟨_, rfl, exec_frame rfl, fun k => ?_⟩⟩
  · rw [State.getV_setV_self, BitVec.getLsbD_or]
  · rw [State.getV_setV_self, BitVec.getLsbD_and]
  · rw [State.getV_setV_self, BitVec.getLsbD_xor]

end Sys2Proof.Machine
end

section
/-! PROOFS of the statements about the index register and memory transfer (43_index_memory.md): the new index register as a
number, and the block transfers of FX55 and FX65 read at the addresses I, I + 1, ..., I + X. -/

namespace Sys2Proof

/-! ### The decoder at ANNN, FX1E and FX29 (R74, R78) -/

theorem decodeWith_familyA {op : Word} (h1 : nibble1 op = 0xA) (strict : Bool) :
    decodeWith strict op = .instr (.ldI (fieldNNN op)) := by
  rw [decodeWith, h1]
  rfl

theorem decodeFamilyF_addI {op : Word} (hnn : fieldNN op = 0x1E) :
    decodeFamilyF op = .instr (.addI (fieldX op)) := by
  rw [decodeFamilyF, hnn]
  rfl

theorem decodeFamilyF_ldF {op : Word} (hnn : fieldNN op = 0x29) :
    decodeFamilyF op = .instr (.ldF (fieldX op)) := by
  rw [decodeFamilyF, hnn]
  rfl

end Sys2Proof

namespace Sys2Proof.Machine

/-! ### The index register's new value as a number (R126, R127, R129) -/

theorem State.addIndex_toNat (s : State) (b : Byte) : (s.i + zextByte b).toNat = (s.i.toNat + b.toNat) % 65536 := by
  rw [BitVec.toNat_add, zextByte_toNat]

/-- The address of a glyph is at most 80 + 5 * 255, so that the sum modulo 65536 is the sum (R127). -/
theorem glyphAddr_toNat (b : Byte) : (glyphAddr b).toNat = 80 + 5 * b.toNat := by
  have hbyte := b.isLt
  have hsum : (glyphAddr b).toNat = (80 + 5 * b.toNat % 65536) % 65536 := by
    rw [glyphAddr, BitVec.toNat_add, BitVec.toNat_mul, zextByte_toNat]
    rfl
  omega

theorem State.bumpIndex_i_toNat (s : State) (n : Nat) : (s.bumpIndex n).i.toNat = (s.i.toNat + n) % 65536 := by
  rw [State.bumpIndex, BitVec.toNat_add, BitVec.toNat_ofNat, Nat.add_mod_mod]

/-! ### The block transfers at the addresses from I on (R129; D2) -/

/-- A byte of the block that has an address in memory is its register (R130). -/
theorem State.readMem_storeRegs_indexAddr (s : State) {n k : Nat} (hk : k < n) (ha : s.indexAddr k < 4096) :
    (State.storeRegs (s.indexAddr 0) n s).readMem (s.indexAddr k) = s.getV k := by
  have hoffset : s.indexAddr k = s.indexAddr 0 + k := rfl
  rw [State.readMem_storeRegs, if_pos (by omega), hoffset, Nat.add_sub_cancel_left]

/-- A register of the block is the byte at its address (R131). -/
theorem State.getV_loadRegs_indexAddr (s : State) {n k : Nat} (hk : k < n) (hn : n ≤ 16) :
    (State.loadRegs (s.indexAddr 0) n s).getV k = s.readMem (s.indexAddr k) := by
  rw [State.getV_loadRegs, if_pos ⟨hk, hk.trans_le hn⟩]
  rfl

theorem State.indexAddr_congr {s u : State} (h : u.i = s.i) (k : Nat) : u.indexAddr k = s.indexAddr k := by
  rw [State.indexAddr, State.indexAddr, h]

theorem State.indexAddr_mono (s : State) {k n : Nat} (h : k ≤ n) : s.indexAddr k ≤ s.indexAddr n :=
  Nat.add_le_add_left h _

/-! ### The statements -/

/-- Settles O35: the index register moves once the bytes are stored, and memory does not depend on it. -/
theorem storeRegistersAndAdvanceIndex : Obligations.StoreRegistersAndAdvanceIndex := by
  refine fun x s => ⟨_, rfl, exec_frame rfl, fun k hk ha => ?_, ?_⟩
  · rw [State.bumpIndex_readMem, s.readMem_storeRegs_indexAddr (Nat.lt_succ_of_le hk) ha]
  · rw [State.bumpIndex_i_toNat, State.storeRegs_i, Nat.add_assoc]

/-- Settles O36: each register is the byte read at its own address, which outside memory is 0. -/
theorem loadRegistersAndAdvanceIndex : Obligations.LoadRegistersAndAdvanceIndex := by
  intro x s
  have hloaded : ∀ k, k ≤ x.val →
      (State.loadRegs (s.indexAddr 0) (x.val + 1) s).getV k = s.readMem (s.indexAddr k) :=
    fun k hk => s.getV_loadRegs_indexAddr (Nat.lt_succ_of_le hk) x.isLt
  refine ⟨_, rfl, exec_frame rfl, hloaded, fun k hk hout => ?_, ?_⟩
  · exact (hloaded k hk).trans (s.readMem_out_of_range _ hout)
  · rw [State.bumpIndex_i_toNat, State.loadRegs_i, Nat.add_assoc]

/-- Settles O37, from O35 and O36: the whole block is in memory since its last byte is, and what the fill reads at an address
is what the spill stored there. -/
theorem spillThenFillGivesTheRegistersBack : Obligations.SpillThenFillGivesTheRegistersBack := by
  intro x s u hlast
  obtain ⟨t, ht, -, hstored, hti⟩ := storeRegistersAndAdvanceIndex x s
  refine ⟨t, ht, fun hi hread => ?_⟩
  obtain ⟨w, hw, -, hloaded, -, hwi⟩ := loadRegistersAndAdvanceIndex x u
  refine ⟨w, hw, fun k hk => ?_, BitVec.eq_of_toNat_eq (by rw [hwi, hti, hi])⟩
  calc w.getV k
      = u.readMem (u.indexAddr k) := hloaded k hk
    _ = t.readMem (s.indexAddr k) := by rw [hread, State.indexAddr_congr hi]
    _ = s.getV k := hstored k hk ((s.indexAddr_mono hk).trans_lt hlast)

/-- Settles O33: family A and two words of family F, and three handlers that write I alone. -/
theorem indexRegisterLoads : Obligations.IndexRegisterLoads := by
  refine ⟨fun op => ⟨fun hA => decodeWith_familyA hA _, fun ⟨hF, hnn⟩ => ?_, fun ⟨hF, hnn⟩ => ?_⟩,
    fun x nnn s => ⟨?_, ?_, ?_⟩⟩
  · exact (decodeWith_familyF hF _).trans (decodeFamilyF_addI hnn)
  · exact (decodeWith_familyF hF _).trans (decodeFamilyF_ldF hnn)
  · exact ⟨_, rfl, zextAddr_toNat nnn, exec_frame rfl⟩
  · exact ⟨_, rfl, s.addIndex_toNat (s.getV x), exec_frame rfl⟩
  · exact ⟨_, rfl, glyphAddr_toNat (s.getV x), exec_frame rfl⟩

end Sys2Proof.Machine
end

section
namespace Sys2Proof.Machine

/-! ### Drawing the same sprite twice (R137) -/

/-- A draw moves neither the origin nor the sprite of the same draw after it, unless the origin is read from VF (log 21). -/
theorem execDrw_keeps_origin_and_sprite {x y : Reg} {n : Nat} {s t : State} (h : exec (.drw x y n) s = .next t)
    (hx : x ≠ VF) (hy : y ≠ VF) :
    t.spriteCol x = s.spriteCol x ∧ t.spriteRow y = s.spriteRow y ∧ t.i = s.i ∧ ∀ a, t.readMem a = s.readMem a := by
  have hframe := exec_frame h
  have hreg : ∀ r : Reg, r ≠ VF → t.getV r = s.getV r := fun r hr => hframe (.reg r) (beq_false_of_ne hr)
  refine ⟨?_, ?_, hframe .index rfl, fun a => hframe (.byte a) rfl⟩
  · rw [State.spriteCol, State.spriteCol, hreg x hx]
  · rw [State.spriteRow, State.spriteRow, hreg y hy]

/-- Each pixel of the box is flipped by its sprite bit in both draws; the other pixels in neither (R137). -/
theorem State.getPixel_drawRows_twice {x0 y0 n : Nat} {s t : State} (hi : t.i = s.i)
    (hmem : ∀ a, t.readMem a = s.readMem a)
    (ht : ∀ row col, t.getPixel row col = (State.drawRows x0 y0 n n s).getPixel row col) (row col : Nat) :
    (State.drawRows x0 y0 n n t).getPixel row col = s.getPixel row col := by
  rw [State.getPixel_drawRows x0 y0 n n le_rfl, ht, State.getPixel_drawRows x0 y0 n n le_rfl, hi, hmem]
  split_ifs
  · rw [Bool.xor_assoc, Bool.xor_self, Bool.xor_false]
  · rfl

/-- The second draw meets a set pixel under a set sprite bit exactly where the first met a pixel that was false (R137). -/
theorem State.collides_after_drawRows_iff {x0 y0 n : Nat} {s t : State} (hi : t.i = s.i)
    (hmem : ∀ a, t.readMem a = s.readMem a)
    (ht : ∀ row col, t.getPixel row col = (State.drawRows x0 y0 n n s).getPixel row col) :
    t.Collides x0 y0 n ↔ ∃ r c, r < n ∧ c < 8 ∧ y0 + r < 32 ∧ x0 + c < 64 ∧
      spriteBit (s.readMem (s.indexAddr r)) c = true ∧ s.getPixel (y0 + r) (x0 + c) = false := by
  refine exists₂_congr fun r c => and_congr_right fun hr => and_congr_right fun hc => and_congr_right fun hrow =>
    and_congr_right fun hcol => ?_
  rw [ht, State.getPixel_drawRows_box x0 y0 n s hr hc hrow hcol, hi, hmem, State.indexAddr, and_comm]
  refine and_congr_right fun hbit => ?_
  rw [hbit, Bool.xor_true, Bool.not_eq_true']

/-! ### The statements -/

/-- Settles O41: the second draw has the origin and the sprite of the first, so every flip is undone. -/
theorem drawingTwiceRestoresTheScreen : Obligations.DrawingTwiceRestoresTheScreen := by
  intro x y n s hx hy
  obtain ⟨hcol, hrow, hi, hmem⟩ := execDrw_keeps_origin_and_sprite (execDrw_eq x y n s) hx hy
  refine ⟨_, _, execDrw_eq x y n s, execDrw_eq x y n _, ?_⟩
  rw [hcol, hrow]
  constructor
  · exact State.getPixel_drawRows_twice (s := s.setFlag false) hi hmem fun _ _ => rfl
  · exact (State.getV_drawRows_setFlag _ _ n _).2.trans
      (State.collides_after_drawRows_iff (s := s.setFlag false) hi hmem fun _ _ => rfl)

/-- Settles O39: what a pixel is after Clear, and IsClear as a statement about every pixel. -/
theorem clearScreenClearsEveryPixel : Obligations.ClearScreenClearsEveryPixel := by
  refine ⟨by decide, fun s => ⟨s.clearScreen, rfl, exec_frame rfl, ?_, s.getPixel_clearScreen⟩⟩
  exact (State.isClear_iff _).2 s.getPixel_clearScreen

end Sys2Proof.Machine
end

section
/-! PROOFS of the statements about keys and timers (45_keys_timers.md): the skips on the key latch, the two timers as
registers, and how a key-down and a cancel end the wait of FX0A. -/

namespace Sys2Proof.Machine

/-! ### The skips when the key is up (R145, R146) -/

theorem execSkp_of_key_up {x : Reg} {s : State} (hup : s.key (s.getV x).toNat = false) :
    exec (.skp x) s = .next s :=
  calc exec (.skp x) s
      = .next (s.skipIf (s.key (s.getV x).toNat)) := rfl
    _ = .next s := by rw [hup]; rfl

theorem execSknp_of_key_up {x : Reg} {s : State} (hup : s.key (s.getV x).toNat = false) :
    exec (.sknp x) s = .next s.advance :=
  calc exec (.sknp x) s
      = .next (s.skipIf (!s.key (s.getV x).toNat)) := rfl
    _ = .next s.advance := by rw [hup]; rfl

/-! ### The events that end a wait (R148, R165, R167; D11) -/

/-- The register takes the key's number, which fits a byte; beside it only the latch and the wait state are written. -/
theorem State.host_keyDown_of_waiting {s : State} {x : Reg} {k : Nat} (hw : s.wait = .waitKey x) (hk : k < 16) :
    ((s.host (.keyDown k)).getV x).toNat = k ∧ (s.host (.keyDown k)).wait = .run ∧
      (s.host (.keyDown k)).key k = true ∧ SameBut [.reg x, .key k, .wait] s (s.host (.keyDown k)) := by
  have hdown : s.host (.keyDown k) = { (s.setKey k true).setV x (BitVec.ofNat 8 k) with wait := .run } :=
    keyDown_waiting hw hk
  have hreg : (s.host (.keyDown k)).getV x = BitVec.ofNat 8 k := by
    rw [hdown]
    exact getV_setV_self _ x _
  have hkey : (s.host (.keyDown k)).key k = true := by
    rw [hdown]
    exact (key_setKey s k k true).trans (if_pos ⟨rfl, hk⟩)
  refine ⟨?_, congrArg State.wait hdown, hkey, fun p hp => ?_⟩
  · rw [hreg, BitVec.toNat_ofNat, Nat.mod_eq_of_lt (by omega)]
  · obtain ⟨hpx, hpk, hpw⟩ : p ≠ .reg x ∧ p ≠ .key k ∧ p ≠ .wait := by simpa using hp
    rw [hdown]
    exact ((sameAt_setKey s k true hpk).trans (sameAt_setV _ x _ hpx)).trans (sameAt_wait _ _ hpw)

theorem State.host_cancel_of_waiting {s : State} {x : Reg} (hw : s.wait = .waitKey x) :
    (s.host .cancel).wait = .run ∧ SameBut [.wait] s (s.host .cancel) := by
  have hcancel : s.host .cancel = { s with wait := .run } := cancel_waiting hw
  rw [hcancel]
  exact ⟨rfl, fun p hp => sameAt_wait s _ (by simpa using hp)⟩

/-! ### The statements -/

/-- Settles O43: FX0A leaves a waiting machine, and each of the two events is taken in that wait. -/
theorem waitForKeyBlocksUntilTheEvent : Obligations.WaitForKeyBlocksUntilTheEvent := by
  intro x s
  have hw : State.wait { s with wait := .waitKey x } = .waitKey x := rfl
  exact ⟨_, rfl, hw, exec_frame rfl, fun _ => State.host_keyDown_of_waiting hw, State.host_cancel_of_waiting hw⟩

/-- Settles O25: both handlers are skips on the key of the whole byte, and a key of 16 or more is never down. -/
theorem keySkipsTestTheLatch : Obligations.KeySkipsTestTheLatch := by
  refine fun x s => ⟨exec_of_skipIf Iff.rfl rfl, ?_, fun hout => ?_⟩
  · rw [← ite_not]
    exact exec_of_skipIf Bool.not_iff_not rfl
  · have hup := s.key_out_of_range _ hout
    exact ⟨execSkp_of_key_up hup, execSknp_of_key_up hup⟩

/-- Settles O42: three handlers that write one register each. -/
theorem timerRegistersReadAndWritten : Obligations.TimerRegistersReadAndWritten := by
  refine fun x s => ⟨?_, ?_, ?_⟩
  · exact ⟨_, rfl, s.getV_setV_self x s.dt, exec_frame rfl⟩
  · exact ⟨_, rfl, rfl, rfl, exec_frame rfl⟩
  · exact ⟨_, rfl, rfl, rfl, exec_frame rfl⟩

end Sys2Proof.Machine
end

section
/-! PROOFS of the statements about exceptions and host events (60_exceptions.md): that no step stops the machine, what a
key-up and the events outside a wait do, and which events commute. -/

namespace Sys2Proof.Machine

/-! ### One key of the latch (R66, R165, R166) -/

theorem State.key_setKey_self (s : State) {k : Nat} (down : Bool) (hk : k < 16) : (s.setKey k down).key k = down :=
  (key_setKey s k k down).trans (if_pos ⟨rfl, hk⟩)

theorem State.sameBut_setKey (s : State) (k : Nat) (down : Bool) : SameBut [.key k] s (s.setKey k down) :=
  fun _ hp => sameAt_setKey s k down (by simpa using hp)

/-! ### The events that leave a wait alone (R163, R164, R166) -/

/-- The events that neither read nor write the general registers or the wait state: all but the two that end a wait, a
key-down and a cancel. -/
inductive HostOp.LeavesWait : HostOp → Prop
  | tickDelay : LeavesWait .tickDelay
  | tickSound : LeavesWait .tickSound
  | keyUp (k : Nat) : LeavesWait (.keyUp k)

section
variable {e : HostOp} (he : e.LeavesWait)
include he

theorem HostOp.LeavesWait.host_wait (s : State) : (s.host e).wait = s.wait := by
  cases he <;> rfl

theorem HostOp.LeavesWait.host_with_wait (s : State) (w : Wait) :
    State.host { s with wait := w } e = { s.host e with wait := w } := by
  cases he <;> rfl

theorem HostOp.LeavesWait.host_setV (s : State) (x : Nat) (b : Byte) : (s.setV x b).host e = (s.host e).setV x b := by
  cases he <;> rfl

/-- Such an event commutes with putting down a key, unless it puts up the same key. -/
theorem HostOp.LeavesWait.host_setKey {j : Nat} (hj : e ≠ .keyUp j) (s : State) :
    (s.setKey j true).host e = (s.host e).setKey j true := by
  cases he with
  | tickDelay => rfl
  | tickSound => rfl
  | keyUp k => exact s.setKey_comm j k true false (.inl fun hjk => hj (hjk ▸ rfl))

/-- It commutes with a cancel, which reads and writes the wait state alone (R167). -/
theorem HostOp.LeavesWait.cancel_comm (s : State) : (s.host e).host .cancel = (s.host .cancel).host e := by
  change (s.host e).cancel = s.cancel.host e
  have hsame := he.host_wait s
  cases hw : s.wait with
  | run => rw [State.cancel_run hw, State.cancel_run (hsame.trans hw)]
  | waitKey x => rw [State.cancel_waiting hw, State.cancel_waiting (hsame.trans hw), he.host_with_wait s .run]

/-- It commutes with a key-down, unless it puts up the same key: the wait state decides what a key-down writes (R165),
and each of its writes commutes. -/
theorem HostOp.LeavesWait.keyDown_comm {j : Nat} (hj : e ≠ .keyUp j) (s : State) :
    (s.host (.keyDown j)).host e = (s.host e).host (.keyDown j) := by
  change (s.keyDown j).host e = (s.host e).keyDown j
  have hsame := he.host_wait s
  rcases Nat.lt_or_ge j 16 with hlt | hge
  · cases hw : s.wait with
    | run => rw [State.keyDown_run hw, State.keyDown_run (hsame.trans hw), he.host_setKey hj]
    | waitKey x =>
      rw [State.keyDown_waiting hw hlt, State.keyDown_waiting (hsame.trans hw) hlt, he.host_with_wait, he.host_setV,
        he.host_setKey hj]
  · rw [s.keyDown_out_of_range hge, (s.host e).keyDown_out_of_range hge]

end

/-- A tick commutes with every event: no other event reads or writes its timer (R163, R164, R168). -/
theorem State.host_tick_comm {t e : HostOp} (ht : t ∈ [HostOp.tickDelay, .tickSound]) {j : Nat}
    (he : e ∈ [HostOp.tickDelay, .tickSound, .keyDown j, .keyUp j, .cancel]) (s : State) :
    (s.host e).host t = (s.host t).host e := by
  simp only [List.mem_cons, List.not_mem_nil, or_false] at ht he
  have hne : t ≠ .keyUp j := by
    rintro rfl
    simp at ht
  have hleaves : t.LeavesWait := by
    rcases ht with rfl | rfl
    · exact .tickDelay
    · exact .tickSound
  rcases he with rfl | rfl | rfl | rfl | rfl
  · rcases ht with rfl | rfl <;> rfl
  · rcases ht with rfl | rfl <;> rfl
  · exact hleaves.keyDown_comm hne s
  · rcases ht with rfl | rfl <;> rfl
  · exact (hleaves.cancel_comm s).symm

/-! ### The statements -/

/-- Settles O14: the one fault of a step needs a finite STACK_CAP (O59), and this model's is infinite. -/
theorem everyStepAnswersANextState : Obligations.EveryStepAnswersANextState := by
  intro s
  refine (stepWith_fault_or_next params s).resolve_left fun hf => ?_
  obtain ⟨-, nnn, cap, -, -, hcap, -⟩ := (stepWith_eq_fault_iff params s).1 hf
  cases hcap

/-- Settles O46: a key-up is one write to the latch, which is dropped out of range. -/
theorem keyUpClearsOneKey : Obligations.KeyUpClearsOneKey :=
  fun s k => ⟨s.key_setKey_self false, s.sameBut_setKey k false, s.setKey_out_of_range k false⟩

/-- Settles O45: outside a wait a key-down is one write to the latch, as a key-up is in any state (O46). -/
theorem keyEventsOutsideAWaitSetTheLatch : Obligations.KeyEventsOutsideAWaitSetTheLatch := by
  intro s k hw
  obtain ⟨hup, hupSame, hupOut⟩ := keyUpClearsOneKey s k
  have hdown : s.host (.keyDown k) = s.setKey k true := State.keyDown_run hw
  rw [hdown]
  exact ⟨fun hk => ⟨s.key_setKey_self true hk, hup hk⟩, s.sameBut_setKey k true, hupSame,
    fun hk => ⟨s.setKey_out_of_range k true hk, hupOut hk⟩, State.cancel_run hw⟩

/-- Settles O48: ticks and key-ups leave a wait alone and so commute with the two events that end it; those two commute
outside a wait, where a key-down is a latch write and a cancel nothing. -/
theorem hostEventsCommute : Obligations.HostEventsCommute := by
  refine fun s j k => ⟨fun e he => ⟨?_, ?_⟩, ?_, ?_, fun hjk => ?_, fun hw => ⟨?_, ?_⟩⟩
  · exact s.host_tick_comm (by simp) he
  · exact s.host_tick_comm (by simp) he
  · exact s.setKey_comm j k false false (.inr rfl)
  · exact (HostOp.LeavesWait.keyUp j).cancel_comm s
  · exact (HostOp.LeavesWait.keyUp k).keyDown_comm (fun h => hjk (HostOp.keyUp.inj h).symm) s
  · have hdown (n : Nat) : s.host (.keyDown n) = s.setKey n true := State.keyDown_run hw
    have hdown' (m n : Nat) : (s.setKey m true).host (.keyDown n) = (s.setKey m true).setKey n true :=
      State.keyDown_run hw
    rw [hdown, hdown, hdown', hdown', s.setKey_comm j k true true (.inr rfl)]
  · have hdown : s.host (.keyDown j) = s.setKey j true := State.keyDown_run hw
    have hcancel : s.host .cancel = s := State.cancel_run hw
    rw [hcancel, hdown]
    exact State.cancel_run hw

end Sys2Proof.Machine
end

section
/-! PROOFS of the statements about reset and host loads (70_reset_and_hazards.md): which bytes a load writes, and that it
writes nothing else. -/

namespace Sys2Proof.Machine

/-! ### The bytes of a load (R192) -/

/-- A byte of the buffer stands at its address, where that is in memory. -/
theorem State.readMem_load_at {buf : List Byte} {k : Nat} {b : Byte} (hb : buf[k]? = some b) (s : State) {addr : Nat}
    (hin : addr + k < 4096) : (State.load buf addr s).readMem (addr + k) = b := by
  rw [State.readMem_load, if_pos ⟨Nat.le_add_right addr k, hin⟩, Nat.add_sub_cancel_left, hb, Option.getD_some]

/-- An address below the buffer's first or past its last reads as before. -/
theorem State.readMem_load_outside {buf : List Byte} {addr a : Nat} (s : State)
    (hout : a < addr ∨ addr + buf.length ≤ a) : (State.load buf addr s).readMem a = s.readMem a := by
  rw [State.readMem_load]
  rcases hout with hbelow | hpast
  · exact if_neg fun h => Nat.not_le.2 hbelow h.1
  · have hnone : buf[a - addr]? = none := List.getElem?_eq_none (Nat.le_sub_of_add_le' hpast)
    rw [hnone, Option.getD_none, ite_self]

/-! ### The statement -/

/-- Settles O49: a load's bytes by what memory reads as after it, its frame by the one field it writes. -/
theorem loadCopiesIntoMemoryOnly : Obligations.LoadCopiesIntoMemoryOnly :=
  fun s buf addr => ⟨fun _ _ hb => s.readMem_load_at hb, fun _ => s.readMem_load_outside,
    fun _ => sameAt_load buf addr s⟩

end Sys2Proof.Machine
end
